-- ==== Sys2Proof/Word.lean ====
section
/-! DEFINITION. The word types of the machine (spec R7, R8): 8-bit and 32-bit unsigned patterns and the 3-bit
pseudo-register selector of a move opcode. -/

namespace Sys2Proof

/-- `XLEN8`: a byte of memory, and the width of `A` to `F` (R7, R20). -/
abbrev Byte := BitVec 8

/-- `XLEN32`: the width of `La` to `Ld`, `Ptr` and `Pc` (R7, R22, R23, R25). -/
abbrev Word := BitVec 32

/-- A raw 3-bit selector field of a move opcode (R81). -/
abbrev Sel := BitVec 3

end Sys2Proof
end

