-- ==== Sys2Proof/Config.lean ====
section
/-! DEFINITION. The implementation parameters of the machine (spec R7): what is fixed when an instance is built. -/

namespace Sys2Proof

/-- The open parameter `MV32_DST4` (R7, R182, decision D8): the register that MV32 writes for destination selector 4. -/
inductive Dst4 where
  | lc
  | ld
  deriving DecidableEq, Repr

/-- The parameters of one constructed instance. They never change after construction (R32, R50). -/
structure Config where
  /-- `MEM_SIZE`, the number of bytes of memory; legal from 0 to 2^32 (R7, decision D1). -/
  memSize : Nat
  /-- `MV32_DST4` (R7, decision D8); the spec's default is `Lc`. -/
  dst4 : Dst4
  deriving DecidableEq, Repr

/-- The largest legal `MEM_SIZE`, 2^32 (R7, decision D1). -/
def addressSpace : Nat := 4294967296

/-- `RUN_DEFAULT_BUDGET` (R7, R130, decision D14): open, "default a large finite value". DESIGN CHOICE (log 3): a free
value, so nothing can be proved of which number it is. -/
opaque Config.runDefaultBudget : Nat

end Sys2Proof
end

