-- ==== Sys2Proof/Syntax.lean ====
section
/-! DEFINITION. The instructions of the machine: one constructor of `Instr` for each row of spec/opcode_table.json. -/

namespace Sys2Proof

/-- The eleven instruction kinds (R1, R84 to R86). -/
inductive Kind where
  | halt | out | jez | jnz | mv | mv32 | cmp | add | sub | xor | aptr
  deriving DecidableEq, Repr

/-- The eight destination selectors of MV (R162). -/
inductive ByteDst where
  /-- Selector 0, "immediate": it names no place to write, and writing it faults. -/
  | immediate
  | a | b | c | d | e | f
  /-- Selector 7: the memory byte at `Ptr + C`. -/
  | indirect
  deriving DecidableEq, Repr

/-- The eight destination selectors of MV32 (R182). -/
inductive IntDst where
  /-- Selector 0, "immediate": it names no place to write, and writing it faults. -/
  | immediate
  | la | lb | lc
  /-- Selector 4: the register named by the parameter `MV32_DST4`. -/
  | l4
  | ptr | pc
  /-- Selector 7: there is no 4-byte indirect write, and writing it faults. -/
  | indirect
  deriving DecidableEq, Repr

/-- One constructor per row of the opcode table. The move rows are told apart by their source selector (R85, R86). -/
inductive Instr where
  /-- HALT, R140. -/
  | halt
  /-- OUT, R141. -/
  | out
  /-- JEZ addr32, R150. -/
  | jez (addr32 : Word)
  /-- JNZ addr32, R151. -/
  | jnz (addr32 : Word)
  /-- CMP, R200. -/
  | cmp
  /-- ADD, R201. -/
  | add
  /-- SUB, R202. -/
  | sub
  /-- XOR, R203. -/
  | xor
  /-- APTR #imm8, R220. -/
  | aptr (imm8 : Byte)
  /-- MV dst, #imm8 (source selector 0), R160. -/
  | mvImm (dst : ByteDst) (imm8 : Byte)
  /-- MV dst, A (source selector 1), R160. -/
  | mvA (dst : ByteDst)
  /-- MV dst, B (source selector 2), R160. -/
  | mvB (dst : ByteDst)
  /-- MV dst, C (source selector 3), R160. -/
  | mvC (dst : ByteDst)
  /-- MV dst, D (source selector 4), R160. -/
  | mvD (dst : ByteDst)
  /-- MV dst, E (source selector 5), R160. -/
  | mvE (dst : ByteDst)
  /-- MV dst, F (source selector 6), R160. -/
  | mvF (dst : ByteDst)
  /-- MV dst, [Ptr+C] (source selector 7), R160. -/
  | mvInd (dst : ByteDst)
  /-- MV32 dst, #imm32 (source selector 0), R180. -/
  | mv32Imm (dst : IntDst) (imm32 : Word)
  /-- MV32 dst, La (source selector 1), R180. -/
  | mv32La (dst : IntDst)
  /-- MV32 dst, Lb (source selector 2), R180. -/
  | mv32Lb (dst : IntDst)
  /-- MV32 dst, Lc (source selector 3), R180. -/
  | mv32Lc (dst : IntDst)
  /-- MV32 dst, Lc' (source selector 4, which reads `Lc` as built), R180, R181. -/
  | mv32LcAlias (dst : IntDst)
  /-- MV32 dst, Ptr (source selector 5), R180. -/
  | mv32Ptr (dst : IntDst)
  /-- MV32 dst, Pc (source selector 6, which reads `pc0 + 1`), R180, R184. -/
  | mv32Pc (dst : IntDst)
  /-- MV32 with the invalid source selector 7, R180, R181. -/
  | mv32Src7 (dst : IntDst)
  deriving DecidableEq, Repr

/-- The kind of an instruction, as the instruction register would hold it (R31). -/
def Instr.kind : Instr → Kind
  | .halt => .halt
  | .out => .out
  | .jez _ => .jez
  | .jnz _ => .jnz
  | .cmp => .cmp
  | .add => .add
  | .sub => .sub
  | .xor => .xor
  | .aptr _ => .aptr
  | .mvImm _ _ | .mvA _ | .mvB _ | .mvC _ | .mvD _ | .mvE _ | .mvF _ | .mvInd _ => .mv
  | .mv32Imm _ _ | .mv32La _ | .mv32Lb _ | .mv32Lc _ | .mv32LcAlias _ | .mv32Ptr _ | .mv32Pc _ | .mv32Src7 _ => .mv32

end Sys2Proof
end

