-- ==== Sys2Proof/WellFormed.lean ====
section
/-! DEFINITION. What the types do not carry by themselves. The operand types of `Instr` are exactly as wide as the fields
of the encoding (3-bit selectors, 8-bit and 32-bit immediates, all of whose values are legal: R87, R88, R94), so every
term of `Instr` is an instruction; which of them can never complete is a second check (R91). -/

namespace Sys2Proof

/-- Every term is encodable: "Operand bytes are never checked: any `imm8` and any `imm32` is legal" (R94), and each
destination selector has one of the eight values of its field (R81). -/
def Instr.wf (_ : Instr) : Bool := true

/-- A destination that MV can write (R162): every selector but 0. -/
def ByteDst.writable : ByteDst → Bool
  | .immediate => false
  | .a | .b | .c | .d | .e | .f | .indirect => true

/-- A destination that MV32 can write (R182): every selector but 0 and 7. -/
def IntDst.writable : IntDst → Bool
  | .immediate | .indirect => false
  | .la | .lb | .lc | .l4 | .ptr | .pc => true

/-- Whether the instruction can complete at all: false for the move opcodes that "decode ... but can never complete" (R91). -/
def Instr.completable : Instr → Bool
  | .halt | .out | .jez _ | .jnz _ | .cmp | .add | .sub | .xor | .aptr _ => true
  | .mvImm dst _ | .mvA dst | .mvB dst | .mvC dst | .mvD dst | .mvE dst | .mvF dst | .mvInd dst => dst.writable
  | .mv32Imm dst _ | .mv32La dst | .mv32Lb dst | .mv32Lc dst | .mv32LcAlias dst | .mv32Ptr dst | .mv32Pc dst =>
    dst.writable
  | .mv32Src7 _ => false

/-- A legal configuration: `0 <= MEM_SIZE <= 2^32` (R7, decision D1, U17). -/
def Config.wf (k : Config) : Bool := decide (k.memSize ≤ addressSpace)

end Sys2Proof
end

