-- ==== Sys2Proof/Machine/State.lean ====
section
/-! DEFINITION. The state of one CPU instance (spec/10_state.md), the faults and the refusals, and the state after reset. -/

namespace Sys2Proof.Machine

open Sys2Proof

/-- Memory as cells (address, byte), in one canonical form: addresses strictly rising, no cell holding what an unlisted
address reads as. -/
abbrev Memory := List Host.Cell

/-- What an unlisted address below `MEM_SIZE` reads as. Every byte of memory has a value from the image (R34), so this
only says which bytes of the image need no cell. DESIGN CHOICE (log 6). -/
def Memory.unlisted : Byte := 0x00

/-- The canonical form of a memory. -/
abbrev Memory.wf (m : Memory) : Prop :=
  m.Pairwise (fun x y => x.1 < y.1) ∧ ∀ cell ∈ m, cell.2 ≠ Memory.unlisted

/-- The four resolver accesses an addressing fault can name (R230, R232). `byteRead` is kept "for completeness, with no
rule that raises it". -/
inductive Access where
  | byteRead | intRead | byteWrite | intWrite
  deriving DecidableEq, Repr

/-- The three causes of a core fault with the `info` each records (R230). -/
inductive Cause where
  /-- `DecodeFault(op)`, R231. -/
  | decode (op : Byte)
  /-- `AddressingFault(access, sel)`, R232. -/
  | addressing (access : Access) (sel : Sel)
  /-- `BoundsFault(addr)`, R233; the address is a natural number and may exceed 2^32 - 1. -/
  | bounds (addr : Nat)
  deriving DecidableEq, Repr

/-- What `Faulted(cause, info, pc0)` records (R29): `pc0` is the address of the faulting instruction's opcode byte. -/
structure FaultRecord where
  cause : Cause
  pc0 : Word
  deriving DecidableEq, Repr

/-- The run status (R28, R29). -/
inductive Status where
  | running
  | halted
  | faulted (record : FaultRecord)
  deriving DecidableEq, Repr

/-- The state between two steps. -/
structure State where
  /-- `A`, accumulator (R20). -/
  regA : Byte
  /-- `B`, right-hand operand (R20). -/
  regB : Byte
  /-- `C`, count/offset (R20). -/
  regC : Byte
  /-- `D`, general purpose (R20). -/
  regD : Byte
  /-- `E`, general purpose (R20). -/
  regE : Byte
  /-- `F`, flags/comparison result (R20, R27). -/
  regF : Byte
  /-- `La` (R22). -/
  la : Word
  /-- `Lb` (R22). -/
  lb : Word
  /-- `Lc` (R22). -/
  lc : Word
  /-- `Ld` (R22); no instruction reads it (R24). -/
  ld : Word
  /-- `Ptr`, the pointer register (R23). -/
  ptr : Word
  /-- `Pc`, the next-fetch address (R25). -/
  pc : Word
  /-- The run status; the source's halted flag is `status = halted` (R28, R29). -/
  status : Status
  /-- Memory, `cfg.memSize` bytes (R32, R50). -/
  mem : Memory
  /-- The output buffer, oldest byte first (R33). -/
  out : List Byte
  /-- The parameters fixed at construction (R7); no step changes them. -/
  cfg : Config
  deriving DecidableEq, Repr

/-- The stops that are faults of a transaction and not of the machine. The three core faults are NOT here: the machine
takes them, as a next state whose status is `faulted` (R238, log 4), so no step answers `.fault`. -/
inductive Fault where
  /-- The assembler format fault (R97, R234), with the malformed token. Raised by `assemble` alone, before any machine
  exists. Safe: no bytes are produced. -/
  | assemblerFormat (token : List Char)
  deriving DecidableEq, Repr

/-- The requests that produce no state. -/
inductive Refusal where
  /-- An instruction without a meaning yet. No arm of `exec` answers it. Safe. -/
  | notModelled (mnemonic : String)
  /-- A step asked for when `status = Halted` (R121, D13, U1). Raised by `step`. Safe: no transition exists there. -/
  | stepWhenHalted
  /-- A step or a run asked for when `status = Faulted` (R121, R134, D13, U6). Raised by `step` and `run`. Safe. -/
  | stepWhenFaulted
  /-- An image of more than 2^32 bytes (R7, D1, U17). Raised by `construct`. Safe: not a legal configuration. -/
  | imageTooLarge
  deriving DecidableEq, Repr

/-- The machine right after reset (R34, R271): every register zero, running, output empty. Reset is the construction with
an image; this one is the construction with the EMPTY image, `MEM_SIZE = 0`, and the spec's default `MV32_DST4 = Lc`.
DESIGN CHOICE (logs 1 and 2); `construct` of Machine/HostPort.lean is reset with any image. -/
def State.reset : State where
  regA := 0
  regB := 0
  regC := 0
  regD := 0
  regE := 0
  regF := 0
  la := 0
  lb := 0
  lc := 0
  ld := 0
  ptr := 0
  pc := 0
  status := .running
  mem := []
  out := []
  cfg := { memSize := 0, dst4 := .lc }

end Sys2Proof.Machine
end

