-- ==== Sys2Proof/Machine/Flags.lean ====
section
/-! DEFINITION. The one condition code, the register `F` (spec R27): what CMP writes and what the branches test. -/

namespace Sys2Proof.Machine

open Sys2Proof

/-- What CMP writes to `F`: 0 when the operands are equal, 1 otherwise, all eight bits (R200). -/
def cmpFlag (x y : Byte) : Byte := if x = y then 0x00 else 0x01

/-- The test of JEZ and JNZ: all eight bits of `F` against zero (R27, R150, R151). -/
def State.flagZero (s : State) : Bool := s.regF == 0x00

end Sys2Proof.Machine
end

