-- ==== Sys2Proof/Machine/Ops.lean ====
section
/-! DEFINITION. The named operations over memory and registers (the primitives of spec R9), and taking a fault as one
shared operation (R238). There is no return from a fault (R240). -/

namespace Sys2Proof.Machine

open Sys2Proof

/-- The byte a memory holds at an address, bounds apart. -/
def Memory.read : Memory → Nat → Byte
  | [], _ => Memory.unlisted
  | cell :: m, addr => if cell.1 = addr then cell.2 else Memory.read m addr

/-- A memory without any cell at an address. -/
def Memory.erase (m : Memory) (addr : Nat) : Memory := m.filter (fun cell => cell.1 != addr)

/-- A cell put at its place in a memory that has none at its address. -/
def Memory.insert (addr : Nat) (v : Byte) : Memory → Memory
  | [] => [(addr, v)]
  | cell :: m => if cell.1 < addr then cell :: Memory.insert addr v m else (addr, v) :: cell :: m

/-- A memory with one byte replaced, canonical form kept (R55). -/
def Memory.write (m : Memory) (addr : Nat) (v : Byte) : Memory :=
  if v = Memory.unlisted then Memory.erase m addr else Memory.insert addr v (Memory.erase m addr)

/-- The memory that holds the given bytes from an address upward. -/
def Memory.ofBytes : Nat → List Byte → Memory
  | _, [] => []
  | addr, b :: bs =>
    if b = Memory.unlisted then Memory.ofBytes (addr + 1) bs else (addr, b) :: Memory.ofBytes (addr + 1) bs

/-- A memory with several consecutive bytes replaced. -/
def Memory.writeBytes (m : Memory) : Nat → List Byte → Memory
  | _, [] => m
  | addr, b :: bs => Memory.writeBytes (Memory.write m addr b) (addr + 1) bs

/-- The byte at a valid address, none at an address that is not valid (R52). The host's memory read (R36). -/
def State.peek (s : State) (addr : Nat) : Option Byte :=
  if addr < s.cfg.memSize then some (Memory.read s.mem addr) else none

/-- `MemRead(addr, 1)` (R54). -/
def memRead (s : State) (addr : Nat) : Except Cause Byte :=
  match s.peek addr with
  | some b => .ok b
  | none => .error (.bounds addr)

/-- `MemRead(addr, 4)`: little-endian, the bytes checked in ascending order, so that the lowest invalid address is the one
reported (R54, R53). -/
def memRead4 (s : State) (addr : Nat) : Except Cause Word := do
  let b0 ← memRead s addr
  let b1 ← memRead s (addr + 1)
  let b2 ← memRead s (addr + 2)
  let b3 ← memRead s (addr + 3)
  pure (b3 ++ b2 ++ b1 ++ b0)

/-- `MemWrite(addr, 1, v)` (R55), the only write to memory there is. -/
def memWrite (s : State) (addr : Nat) (v : Byte) : Except Cause State :=
  if addr < s.cfg.memSize then .ok { s with mem := Memory.write s.mem addr v } else .error (.bounds addr)

/-- `OutAppend(b)` (R33). -/
def State.outAppend (s : State) (b : Byte) : State := { s with out := s.out ++ [b] }

/-- The end of fetch: `Pc` moves past the bytes consumed, modulo 2^32 (R26, R126). -/
def State.advance (s : State) (n : Nat) : State := { s with pc := s.pc + BitVec.ofNat 32 n }

/-- `raise <Fault>(info)` (R238): the state of the step's START with the fault recorded in `status` and nothing else
changed; `Pc` stays `pc0`. -/
def State.raise (s : State) (c : Cause) : State := { s with status := .faulted { cause := c, pc0 := s.pc } }

/-- The end of a step that began in `s`: the state it reached, or the fault it raised, taken (R128, R238). -/
def complete (s : State) (r : Except Cause State) : Host.Outcome State Fault Refusal :=
  match r with
  | .ok t => .next t
  | .error c => .next (s.raise c)

/-- The numeric code of a cause (R230, decision D12). Nothing in the machine reads it. -/
def Cause.code : Cause → Nat
  | .decode _ => 1
  | .addressing _ _ => 2
  | .bounds _ => 3

end Sys2Proof.Machine
end

