-- ==== Sys2Proof/Machine/Alu.lean ====
section
/-! DEFINITION. CMP, ADD, SUB, XOR (spec/45_alu.md) on `A` and `B`. Only CMP writes `F`. -/

namespace Sys2Proof.Machine

open Sys2Proof

/-- CMP (R200). -/
def execCmp (s : State) : Host.Outcome State Fault Refusal :=
  .next { s.advance 1 with regF := cmpFlag s.regA s.regB }

/-- ADD, modulo 256 (R201, R204). -/
def execAdd (s : State) : Host.Outcome State Fault Refusal :=
  .next { s.advance 1 with regA := s.regA + s.regB }

/-- SUB, modulo 256 (R202, R204). -/
def execSub (s : State) : Host.Outcome State Fault Refusal :=
  .next { s.advance 1 with regA := s.regA - s.regB }

/-- XOR, bit by bit (R203). -/
def execXor (s : State) : Host.Outcome State Fault Refusal :=
  .next { s.advance 1 with regA := s.regA ^^^ s.regB }

end Sys2Proof.Machine
end

