-- ==== Sys2Proof/Machine/Aptr.lean ====
section
/-! DEFINITION. APTR (spec/46_aptr.md). -/

namespace Sys2Proof.Machine

open Sys2Proof

/-- APTR #imm8: the byte, zero-extended, added into the whole of `Ptr` modulo 2^32 (R220, decision D9). -/
def execAptr (imm8 : Byte) (s : State) : Host.Outcome State Fault Refusal :=
  .next { s.advance 2 with ptr := s.ptr + imm8.setWidth 32 }

end Sys2Proof.Machine
end

