-- ==== Sys2Proof/Machine/Branch.lean ====
section
/-! DEFINITION. JEZ and JNZ (spec/42_branch.md): absolute targets, no delay slot, target not checked (R152). -/

namespace Sys2Proof.Machine

open Sys2Proof

/-- A five-byte branch: to the target when taken, else past the instruction (R150, R151). -/
def branch (taken : Bool) (target : Word) (s : State) : Host.Outcome State Fault Refusal :=
  .next (if taken then { s.advance 5 with pc := target } else s.advance 5)

/-- JEZ addr32 (R150). -/
def execJez (addr32 : Word) (s : State) : Host.Outcome State Fault Refusal := branch s.flagZero addr32 s

/-- JNZ addr32 (R151). -/
def execJnz (addr32 : Word) (s : State) : Host.Outcome State Fault Refusal := branch (!s.flagZero) addr32 s

end Sys2Proof.Machine
end

