-- ==== Sys2Proof/Decode.lean ====
section
/-! DEFINITION. The decoder, total on any byte list and rejecting by name, and the encoder, both written from the
encoding tables of spec/30_encoding.md. -/

namespace Sys2Proof

/-- Four bytes as a 32-bit value, the first the least significant (R53, R88). -/
def joinLe (b0 b1 b2 b3 : Byte) : Word := b3 ++ b2 ++ b1 ++ b0

/-- A 32-bit value as its four bytes, least significant first (R53, R88). -/
def splitLe (w : Word) : List Byte :=
  [w.extractLsb' 0 8, w.extractLsb' 8 8, w.extractLsb' 16 8, w.extractLsb' 24 8]

/-- `top = op[7:6]` (R81). -/
def opTop (op : Byte) : BitVec 2 := op.extractLsb' 6 2

/-- `dst = op[5:3]` (R81). -/
def opDst (op : Byte) : Sel := op.extractLsb' 3 3

/-- `src = op[2:0]` (R81). -/
def opSrc (op : Byte) : Sel := op.extractLsb' 0 3

/-- The selector number of an MV destination (R21, R162). -/
def ByteDst.sel : ByteDst → Sel
  | .immediate => 0 | .a => 1 | .b => 2 | .c => 3 | .d => 4 | .e => 5 | .f => 6 | .indirect => 7

/-- The selector number of an MV32 destination (R24, R182). -/
def IntDst.sel : IntDst → Sel
  | .immediate => 0 | .la => 1 | .lb => 2 | .lc => 3 | .l4 => 4 | .ptr => 5 | .pc => 6 | .indirect => 7

/-- The MV destination with a given selector (R162). -/
def byteDstOf (s : Sel) : ByteDst :=
  if s = 0 then .immediate else if s = 1 then .a else if s = 2 then .b else if s = 3 then .c
  else if s = 4 then .d else if s = 5 then .e else if s = 6 then .f else .indirect

/-- The MV32 destination with a given selector (R182). -/
def intDstOf (s : Sel) : IntDst :=
  if s = 0 then .immediate else if s = 1 then .la else if s = 2 then .lb else if s = 3 then .lc
  else if s = 4 then .l4 else if s = 5 then .ptr else if s = 6 then .pc else .indirect

/-- What an opcode byte calls for after it: nothing, one operand byte, or four (R80, R82). -/
inductive Shape where
  | bare (i : Instr)
  | imm8 (mk : Byte → Instr)
  | imm32 (mk : Word → Instr)

/-- The MV rows by source selector (R85). -/
def mvShape (dst src : Sel) : Shape :=
  let place := byteDstOf dst
  if src = 0 then .imm8 (.mvImm place) else if src = 1 then .bare (.mvA place) else if src = 2 then .bare (.mvB place)
  else if src = 3 then .bare (.mvC place) else if src = 4 then .bare (.mvD place) else if src = 5 then .bare (.mvE place)
  else if src = 6 then .bare (.mvF place) else .bare (.mvInd place)

/-- The MV32 rows by source selector (R86). -/
def mv32Shape (dst src : Sel) : Shape :=
  let place := intDstOf dst
  if src = 0 then .imm32 (.mv32Imm place) else if src = 1 then .bare (.mv32La place) else if src = 2 then .bare (.mv32Lb place)
  else if src = 3 then .bare (.mv32Lc place) else if src = 4 then .bare (.mv32LcAlias place)
  else if src = 5 then .bare (.mv32Ptr place) else if src = 6 then .bare (.mv32Pc place) else .bare (.mv32Src7 place)

/-- The nine fixed opcodes, matched whole (R84). -/
def fixedShape (op : Byte) : Option Shape :=
  if op = 0x01 then some (.bare .halt) else if op = 0x02 then some (.bare .out)
  else if op = 0x21 then some (.imm32 .jez) else if op = 0x22 then some (.imm32 .jnz)
  else if op = 0xC1 then some (.bare .cmp) else if op = 0xC2 then some (.bare .add)
  else if op = 0xC3 then some (.bare .sub) else if op = 0xC4 then some (.bare .xor)
  else if op = 0xE1 then some (.imm8 .aptr) else none

/-- The two-stage lookup of the opcode byte: the move masks first, then the fixed table (R83). -/
def opcodeShape (op : Byte) : Option Shape :=
  if op &&& 0xC0 = 0x40 then some (mvShape (opDst op) (opSrc op))
  else if op &&& 0xC0 = 0x80 then some (mv32Shape (opDst op) (opSrc op))
  else fixedShape op

/-- Why a byte list holds no instruction. -/
inductive DecodeError where
  /-- The first byte is one of the 119 illegal opcode bytes (R90). The machine raises `DecodeFault(op)`. -/
  | unknownOpcode (op : Byte)
  /-- The list ends before the byte number `index` of the instruction (the opcode is number 0). The machine raises
  `BoundsFault` on that byte's address (R59). -/
  | missingByte (index : Nat)
  deriving DecidableEq, Repr

/-- Takes the operand bytes an opcode calls for and answers the instruction with the bytes left over (R87, R88). -/
def decodeOperand : Shape → List Byte → Except DecodeError (Instr × List Byte)
  | .bare i, rest => .ok (i, rest)
  | .imm8 mk, b :: rest => .ok (mk b, rest)
  | .imm8 _, [] => .error (.missingByte 1)
  | .imm32 mk, b0 :: b1 :: b2 :: b3 :: rest => .ok (mk (joinLe b0 b1 b2 b3), rest)
  | .imm32 _, short => .error (.missingByte (1 + short.length))

/-- The decoder: the first instruction of a byte list, lowest address first, with the bytes after it (R80, R83). -/
def decode : List Byte → Except DecodeError (Instr × List Byte)
  | [] => .error (.missingByte 0)
  | op :: rest =>
    match opcodeShape op with
    | none => .error (.unknownOpcode op)
    | some shape => decodeOperand shape rest

/-- `Length(op)` (R89): the length of an instruction as a function of its opcode byte alone; none for an illegal byte. -/
def opcodeLength (op : Byte) : Option Nat :=
  if op = 0x01 ∨ op = 0x02 ∨ op = 0xC1 ∨ op = 0xC2 ∨ op = 0xC3 ∨ op = 0xC4 then some 1
  else if op = 0xE1 then some 2
  else if op = 0x21 ∨ op = 0x22 then some 5
  else if op &&& 0xC0 = 0x40 then some (if opSrc op = 0 then 2 else 1)
  else if op &&& 0xC0 = 0x80 then some (if opSrc op = 0 then 5 else 1)
  else none

/-- The 119 illegal opcode bytes as R90 lists them. -/
def illegalOpcode (op : Byte) : Bool :=
  op == 0x00 || (0x03 ≤ op && op ≤ 0x20) || (0x23 ≤ op && op ≤ 0x3F) || op == 0xC0 ||
    (0xC5 ≤ op && op ≤ 0xE0) || 0xE2 ≤ op

/-- The opcode byte of an MV row: `0b01 dst src` (R81, R85). -/
def mvOpcode (dst : ByteDst) (src : Sel) : Byte := (0b01#2 ++ dst.sel) ++ src

/-- The opcode byte of an MV32 row: `0b10 dst src` (R81, R86). -/
def mv32Opcode (dst : IntDst) (src : Sel) : Byte := (0b10#2 ++ dst.sel) ++ src

/-- The bytes of an instruction, lowest address first (R82, R84 to R88, R99). -/
def encode : Instr → List Byte
  | .halt => [0x01]
  | .out => [0x02]
  | .jez addr32 => 0x21 :: splitLe addr32
  | .jnz addr32 => 0x22 :: splitLe addr32
  | .cmp => [0xC1]
  | .add => [0xC2]
  | .sub => [0xC3]
  | .xor => [0xC4]
  | .aptr imm8 => [0xE1, imm8]
  | .mvImm dst imm8 => [mvOpcode dst 0, imm8]
  | .mvA dst => [mvOpcode dst 1]
  | .mvB dst => [mvOpcode dst 2]
  | .mvC dst => [mvOpcode dst 3]
  | .mvD dst => [mvOpcode dst 4]
  | .mvE dst => [mvOpcode dst 5]
  | .mvF dst => [mvOpcode dst 6]
  | .mvInd dst => [mvOpcode dst 7]
  | .mv32Imm dst imm32 => mv32Opcode dst 0 :: splitLe imm32
  | .mv32La dst => [mv32Opcode dst 1]
  | .mv32Lb dst => [mv32Opcode dst 2]
  | .mv32Lc dst => [mv32Opcode dst 3]
  | .mv32LcAlias dst => [mv32Opcode dst 4]
  | .mv32Ptr dst => [mv32Opcode dst 5]
  | .mv32Pc dst => [mv32Opcode dst 6]
  | .mv32Src7 dst => [mv32Opcode dst 7]

/-- The bytes of a table word: `nbits` bits of `w`, the first byte the least significant, and zero bytes after them up to
the longest instruction, five bytes. -/
def tableBytes (nbits w : Nat) : List Byte :=
  let v := w % 2 ^ nbits
  [BitVec.ofNat 8 v, BitVec.ofNat 8 (v / 256), BitVec.ofNat 8 (v / 65536), BitVec.ofNat 8 (v / 16777216),
    BitVec.ofNat 8 (v / 4294967296)]

/-- The instruction the decoder reads from a word numbered as spec/opcode_table.json numbers its bits. -/
def decodeTableWord (nbits w : Nat) : Option Instr :=
  match decode (tableBytes nbits w) with
  | .ok (i, _) => some i
  | .error _ => none

end Sys2Proof
end

