-- ==== Sys2Proof/Machine/Operands.lean ====
section
/-! DEFINITION. The operand forms: the indirect mode, and the write sides of the two pseudo-register resolvers
(spec R58, R162, R182). The read sides are one table row a source; each row's meaning names its source. -/

namespace Sys2Proof.Machine

open Sys2Proof

/-- `ea = x[Ptr] + zext(x[C])`, a natural number that is not reduced modulo 2^32 (R58, decision D4). -/
def State.effectiveAddr (s : State) : Nat := s.ptr.toNat + s.regC.toNat

/-- `ReadByte(7, p)`: the byte at `Ptr + C` (R161). -/
def readIndirect (s : State) : Except Cause Byte := memRead s s.effectiveAddr

/-- `WriteByte(dst, v)` (R162): the numbering of the registers is decision D5, the fault of selector 0 decision D6. -/
def writeByte (dst : ByteDst) (v : Byte) (s : State) : Except Cause State :=
  match dst with
  | .immediate => .error (.addressing .byteWrite 0)
  | .a => .ok { s with regA := v }
  | .b => .ok { s with regB := v }
  | .c => .ok { s with regC := v }
  | .d => .ok { s with regD := v }
  | .e => .ok { s with regE := v }
  | .f => .ok { s with regF := v }
  | .indirect => memWrite s s.effectiveAddr v

/-- The write of destination selector 4: the register named by `MV32_DST4` (R182, decision D8). -/
def State.setL4 (s : State) (v : Word) : State :=
  match s.cfg.dst4 with
  | .lc => { s with lc := v }
  | .ld => { s with ld := v }

/-- `WriteInt(dst, v)` (R182): the numbering is decision D7, the fault of selector 0 decision D6. -/
def writeInt (dst : IntDst) (v : Word) (s : State) : Except Cause State :=
  match dst with
  | .immediate => .error (.addressing .intWrite 0)
  | .la => .ok { s with la := v }
  | .lb => .ok { s with lb := v }
  | .lc => .ok { s with lc := v }
  | .l4 => .ok (s.setL4 v)
  | .ptr => .ok { s with ptr := v }
  | .pc => .ok { s with pc := v }
  | .indirect => .error (.addressing .intWrite 7)

/-- The rest of an MV of `len` bytes once its source is resolved to `v`: `Pc` past the instruction, then the write (R160). -/
def moveByte (len : Nat) (dst : ByteDst) (v : Byte) (s : State) : Host.Outcome State Fault Refusal :=
  complete s (writeByte dst v (s.advance len))

/-- The rest of an MV32 of `len` bytes once its source is resolved to `v` (R180). -/
def moveInt (len : Nat) (dst : IntDst) (v : Word) (s : State) : Host.Outcome State Fault Refusal :=
  complete s (writeInt dst v (s.advance len))

end Sys2Proof.Machine
end

