-- ==== Sys2Proof/Machine/Move32.lean ====
section
/-! DEFINITION. MV32, the 32-bit move (spec/44_move32.md): one meaning per source selector (R181), over `writeInt` (R182).
The source is resolved before the destination is looked at (R180). -/

namespace Sys2Proof.Machine

open Sys2Proof

/-- MV32 dst, #imm32, five bytes (R180, R181 selector 0). -/
def execMv32Imm (dst : IntDst) (imm32 : Word) (s : State) : Host.Outcome State Fault Refusal := moveInt 5 dst imm32 s

/-- MV32 dst, La (R180, R181 selector 1). -/
def execMv32La (dst : IntDst) (s : State) : Host.Outcome State Fault Refusal := moveInt 1 dst s.la s

/-- MV32 dst, Lb (R180, R181 selector 2). -/
def execMv32Lb (dst : IntDst) (s : State) : Host.Outcome State Fault Refusal := moveInt 1 dst s.lb s

/-- MV32 dst, Lc (R180, R181 selector 3). -/
def execMv32Lc (dst : IntDst) (s : State) : Host.Outcome State Fault Refusal := moveInt 1 dst s.lc s

/-- MV32 dst, Lc': selector 4 reads `Lc`, not `Ld`, as built (R180, R181 selector 4). -/
def execMv32LcAlias (dst : IntDst) (s : State) : Host.Outcome State Fault Refusal := moveInt 1 dst s.lc s

/-- MV32 dst, Ptr (R180, R181 selector 5). -/
def execMv32Ptr (dst : IntDst) (s : State) : Host.Outcome State Fault Refusal := moveInt 1 dst s.ptr s

/-- MV32 dst, Pc: `Pc` in mid-fetch, `pc0 + 1` modulo 2^32 (R180, R181 selector 6). -/
def execMv32Pc (dst : IntDst) (s : State) : Host.Outcome State Fault Refusal := moveInt 1 dst (s.advance 1).pc s

/-- MV32 with source selector 7: `AddressingFault(IntRead, 7)` whatever the destination (R181). -/
def execMv32Src7 (_dst : IntDst) (s : State) : Host.Outcome State Fault Refusal :=
  .next (s.raise (.addressing .intRead 7))

end Sys2Proof.Machine
end

