-- ==== Sys2Proof/Machine/Move8.lean ====
section
/-! DEFINITION. MV, the 8-bit move (spec/43_move8.md): one meaning per source selector (R161), over `writeByte` (R162).
The source is resolved before the destination is looked at (R160). -/

namespace Sys2Proof.Machine

open Sys2Proof

/-- MV dst, #imm8, two bytes (R160, R161 selector 0). -/
def execMvImm (dst : ByteDst) (imm8 : Byte) (s : State) : Host.Outcome State Fault Refusal := moveByte 2 dst imm8 s

/-- MV dst, A (R160, R161 selector 1). -/
def execMvA (dst : ByteDst) (s : State) : Host.Outcome State Fault Refusal := moveByte 1 dst s.regA s

/-- MV dst, B (R160, R161 selector 2). -/
def execMvB (dst : ByteDst) (s : State) : Host.Outcome State Fault Refusal := moveByte 1 dst s.regB s

/-- MV dst, C (R160, R161 selector 3). -/
def execMvC (dst : ByteDst) (s : State) : Host.Outcome State Fault Refusal := moveByte 1 dst s.regC s

/-- MV dst, D (R160, R161 selector 4). -/
def execMvD (dst : ByteDst) (s : State) : Host.Outcome State Fault Refusal := moveByte 1 dst s.regD s

/-- MV dst, E (R160, R161 selector 5). -/
def execMvE (dst : ByteDst) (s : State) : Host.Outcome State Fault Refusal := moveByte 1 dst s.regE s

/-- MV dst, F (R160, R161 selector 6). -/
def execMvF (dst : ByteDst) (s : State) : Host.Outcome State Fault Refusal := moveByte 1 dst s.regF s

/-- MV dst, [Ptr+C] (R160, R161 selector 7): the indirect read, which can fault before the destination does (R236). -/
def execMvInd (dst : ByteDst) (s : State) : Host.Outcome State Fault Refusal :=
  match readIndirect s with
  | .ok v => moveByte 1 dst v s
  | .error c => .next (s.raise c)

end Sys2Proof.Machine
end

