-- ==== Sys2Proof/Machine/System.lean ====
section
/-! DEFINITION. HALT and OUT (spec/41_halt_out.md). Each meaning starts at the state of the step's start, `Pc = pc0`. -/

namespace Sys2Proof.Machine

open Sys2Proof

/-- HALT (R140). -/
def execHalt (s : State) : Host.Outcome State Fault Refusal := .next { s.advance 1 with status := .halted }

/-- OUT (R141). -/
def execOut (s : State) : Host.Outcome State Fault Refusal := .next ((s.advance 1).outAppend s.regA)

end Sys2Proof.Machine
end

