-- ==== Sys2Proof/Machine/Dispatch.lean ====
section
/-! DEFINITION. `exec`: the execution of a fetched instruction at the state of its step's start (spec R127). -/

namespace Sys2Proof.Machine

open Sys2Proof

def exec (i : Instr) (s : State) : Host.Outcome State Fault Refusal :=
  match i with
  | .halt => Sys2Proof.Machine.execHalt s
  | .out => Sys2Proof.Machine.execOut s
  | .jez addr32 => Sys2Proof.Machine.execJez addr32 s
  | .jnz addr32 => Sys2Proof.Machine.execJnz addr32 s
  | .cmp => Sys2Proof.Machine.execCmp s
  | .add => Sys2Proof.Machine.execAdd s
  | .sub => Sys2Proof.Machine.execSub s
  | .xor => Sys2Proof.Machine.execXor s
  | .aptr imm8 => Sys2Proof.Machine.execAptr imm8 s
  | .mvImm dst imm8 => Sys2Proof.Machine.execMvImm dst imm8 s
  | .mvA dst => Sys2Proof.Machine.execMvA dst s
  | .mvB dst => Sys2Proof.Machine.execMvB dst s
  | .mvC dst => Sys2Proof.Machine.execMvC dst s
  | .mvD dst => Sys2Proof.Machine.execMvD dst s
  | .mvE dst => Sys2Proof.Machine.execMvE dst s
  | .mvF dst => Sys2Proof.Machine.execMvF dst s
  | .mvInd dst => Sys2Proof.Machine.execMvInd dst s
  | .mv32Imm dst imm32 => Sys2Proof.Machine.execMv32Imm dst imm32 s
  | .mv32La dst => Sys2Proof.Machine.execMv32La dst s
  | .mv32Lb dst => Sys2Proof.Machine.execMv32Lb dst s
  | .mv32Lc dst => Sys2Proof.Machine.execMv32Lc dst s
  | .mv32LcAlias dst => Sys2Proof.Machine.execMv32LcAlias dst s
  | .mv32Ptr dst => Sys2Proof.Machine.execMv32Ptr dst s
  | .mv32Pc dst => Sys2Proof.Machine.execMv32Pc dst s
  | .mv32Src7 dst => Sys2Proof.Machine.execMv32Src7 dst s

end Sys2Proof.Machine
end

