-- ==== Sys2Proof/Machine/Fetch.lean ====
section
/-! DEFINITION. Fetch: the bytes at `Pc`, decoded (spec R122 to R124, R59). -/

namespace Sys2Proof.Machine

open Sys2Proof

/-- The bytes of memory from `addr` upward, at most `n`, stopping at the end of memory: addresses are natural numbers and
never wrap to 0 (R59). -/
def codeBytes (s : State) : Nat → Nat → List Byte
  | _, 0 => []
  | addr, n + 1 =>
    match s.peek addr with
    | some b => b :: codeBytes s (addr + 1) n
    | none => []

/-- Fetch at `Pc`: the instruction there, or the fault of its fetch. An illegal opcode byte raises `DecodeFault` before any
operand byte is looked at (R231); a byte missing at the end of memory raises `BoundsFault` on its address, the lowest one
missing (R54, R59, R122, R124). -/
def fetch (s : State) : Except Cause Instr :=
  match decode (codeBytes s s.pc.toNat 5) with
  | .ok (i, _) => .ok i
  | .error (.unknownOpcode op) => .error (.decode op)
  | .error (.missingByte k) => .error (.bounds (s.pc.toNat + k))

/-- A memory size and memory in which the given bytes stand at an address: what `Construct(image)` would have loaded there. -/
def State.withCode (s : State) (addr : Nat) (bytes : List Byte) : State :=
  { s with
    mem := Memory.writeBytes s.mem addr bytes
    cfg := { s.cfg with memSize := max s.cfg.memSize (addr + bytes.length) } }

end Sys2Proof.Machine
end

