-- ==== Sys2Proof/Machine/Step.lean ====
section
/-! DEFINITION. One step of the engine (spec R120, R121, R128). -/

namespace Sys2Proof.Machine

open Sys2Proof

/-- `Step()`: one fetch and one execute in status Running, a fault of either taken (R128, R238); refused in Halted and in
Faulted (R121, decision D13). `exec` moves `Pc` itself, so step adds nothing around it. -/
def step (s : State) : Host.Outcome State Fault Refusal :=
  match s.status with
  | .running =>
    match fetch s with
    | .ok i => exec i s
    | .error c => .next (s.raise c)
  | .halted => .refused .stepWhenHalted
  | .faulted _ => .refused .stepWhenFaulted

/-- The state in which the very next step runs the instruction of a table word: its bytes, with zeros after them up to the
longest instruction, stand at `Pc`, `MEM_SIZE` reaches past them, and the machine is running. It stands for the load of an
image by the host (log 16). -/
def State.withFetchWord (s : State) (nbits w : Nat) : State :=
  { s.withCode s.pc.toNat (tableBytes nbits w) with status := .running }

end Sys2Proof.Machine
end

