-- ==== Sys2Proof/Machine/Assembler.lean ====
section
/-! DEFINITION. The hex-byte assembler (spec R95 to R99), software outside the CPU that makes the memory image. The lexical
details are decision D18 (log 13). -/

namespace Sys2Proof.Machine

open Sys2Proof

/-- White space inside a line: space, tab, CR (R97). -/
def isBlank (c : Char) : Bool := c == ' ' || c == '\t' || c == '\r'

/-- The lines of a text, split at LF (R97). -/
def splitLines : List Char → List (List Char)
  | [] => [[]]
  | c :: cs =>
    if c = '\n' then [] :: splitLines cs
    else
      match splitLines cs with
      | [] => [[c]]
      | line :: lines => (c :: line) :: lines

/-- A line up to its first `#`, or the whole line (R96). -/
def stripComment (line : List Char) : List Char := line.takeWhile (· != '#')

/-- A finished token put before the later ones, unless it is empty. -/
def pushToken (tok : List Char) (later : List (List Char)) : List (List Char) :=
  if tok = [] then later else tok :: later

/-- The maximal runs of non-white-space characters of a line, left to right; `cur` is the run being read (R97). -/
def tokensFrom (cur : List Char) : List Char → List (List Char)
  | [] => pushToken cur []
  | c :: cs => if isBlank c then pushToken cur (tokensFrom [] cs) else tokensFrom (cur ++ [c]) cs

/-- The value of a hexadecimal digit, both cases accepted (R97, decision D18). -/
def hexValue (c : Char) : Option Nat :=
  let n := c.toNat
  if 48 ≤ n ∧ n ≤ 57 then some (n - 48)
  else if 65 ≤ n ∧ n ≤ 70 then some (n - 55)
  else if 97 ≤ n ∧ n ≤ 102 then some (n - 87)
  else none

/-- The byte of a token of exactly two hexadecimal digits, the first the high one; none for a malformed token (R97). -/
def tokenByte : List Char → Option Byte
  | [hi, lo] =>
    match hexValue hi, hexValue lo with
    | some x, some y => some (BitVec.ofNat 8 (16 * x + y))
    | _, _ => none
  | _ => none

/-- The bytes of a list of tokens, or the fault of the first malformed one (R97). -/
def tokenBytes : List (List Char) → Except Fault (List Byte)
  | [] => .ok []
  | tok :: toks =>
    match tokenByte tok with
    | none => .error (.assemblerFormat tok)
    | some b =>
      match tokenBytes toks with
      | .ok bs => .ok (b :: bs)
      | .error r => .error r

/-- The tokens of a whole text, in document order (R95 to R97). -/
def textTokens (text : List Char) : List (List Char) :=
  (splitLines text).flatMap (fun line => tokensFrom [] (stripComment line))

/-- `Assemble(text)` (R97): the bytes in document order, or the assembler format fault and no bytes at all. -/
def assemble (text : List Char) : Except Fault (List Byte) := tokenBytes (textTokens text)

/-- The hexadecimal digit of a value below 16, upper case. -/
def hexDigit (n : Nat) : Char := if n < 10 then Char.ofNat (48 + n) else Char.ofNat (55 + n)

/-- Bytes written as assembler text, one two-digit token each with a space after it (R95). -/
def hexDump : List Byte → List Char
  | [] => []
  | b :: bs => hexDigit (b.toNat / 16) :: hexDigit (b.toNat % 16) :: ' ' :: hexDump bs

end Sys2Proof.Machine
end

