-- ==== Sys2Proof/Machine/Engine.lean ====
section
/-! DEFINITION. The engine as the spec's own pseudocode has it, over raw opcode bytes and raw selectors: `Decode` (R83),
`ReadByte` (R161), `WriteByte` (R162), `ReadInt` (R181), `WriteInt` (R182), the instruction register (R31), `Step` (R128).
It is the reference that `step` is stated to refine; `step` itself never calls it. -/

namespace Sys2Proof.Machine

open Sys2Proof

/-- What `Decode(op)` answers (R83): the kind, and the two selectors for the move kinds. -/
inductive Decoded where
  | halt | out | jez | jnz | cmp | add | sub | xor | aptr
  | mv (dst src : Sel)
  | mv32 (dst src : Sel)
  deriving DecidableEq, Repr

/-- The kind a decode answers. -/
def Decoded.kind : Decoded → Kind
  | .halt => .halt | .out => .out | .jez => .jez | .jnz => .jnz | .cmp => .cmp | .add => .add | .sub => .sub
  | .xor => .xor | .aptr => .aptr | .mv _ _ => .mv | .mv32 _ _ => .mv32

/-- What `Decode` (R83) should answer for an instruction's opcode byte: its kind and, for the moves, the destination and
source selectors that its row and its destination operand stand for (R85, R86). -/
def decodedOf : Instr → Decoded
  | .halt => .halt
  | .out => .out
  | .jez _ => .jez
  | .jnz _ => .jnz
  | .cmp => .cmp
  | .add => .add
  | .sub => .sub
  | .xor => .xor
  | .aptr _ => .aptr
  | .mvImm dst _ => .mv dst.sel 0
  | .mvA dst => .mv dst.sel 1
  | .mvB dst => .mv dst.sel 2
  | .mvC dst => .mv dst.sel 3
  | .mvD dst => .mv dst.sel 4
  | .mvE dst => .mv dst.sel 5
  | .mvF dst => .mv dst.sel 6
  | .mvInd dst => .mv dst.sel 7
  | .mv32Imm dst _ => .mv32 dst.sel 0
  | .mv32La dst => .mv32 dst.sel 1
  | .mv32Lb dst => .mv32 dst.sel 2
  | .mv32Lc dst => .mv32 dst.sel 3
  | .mv32LcAlias dst => .mv32 dst.sel 4
  | .mv32Ptr dst => .mv32 dst.sel 5
  | .mv32Pc dst => .mv32 dst.sel 6
  | .mv32Src7 dst => .mv32 dst.sel 7

/-- The instruction register at the end of fetch (R31, R126): the kind, the resolved operand where the kind has one, and
for the moves the raw selectors. It lives inside one step only (log 7). -/
inductive IR where
  | halt | out | cmp | add | sub | xor
  | jez (operand : Word)
  | jnz (operand : Word)
  | aptr (operand : Byte)
  | mv (operand : Byte) (src dst : Sel)
  | mv32 (operand : Word) (src dst : Sel)
  deriving DecidableEq, Repr

/-- `Decode(op)` (R83). -/
def engineDecode (op : Byte) : Except Cause Decoded :=
  if op &&& 0xC0 = 0x40 then .ok (.mv (op.extractLsb' 3 3) (op.extractLsb' 0 3))
  else if op &&& 0xC0 = 0x80 then .ok (.mv32 (op.extractLsb' 3 3) (op.extractLsb' 0 3))
  else if op = 0x01 then .ok .halt
  else if op = 0x02 then .ok .out
  else if op = 0x21 then .ok .jez
  else if op = 0x22 then .ok .jnz
  else if op = 0xC1 then .ok .cmp
  else if op = 0xC2 then .ok .add
  else if op = 0xC3 then .ok .sub
  else if op = 0xC4 then .ok .xor
  else if op = 0xE1 then .ok .aptr
  else .error (.decode op)

/-- `ReadByte(src, p)` (R161). -/
def engineReadByte (s : State) (src : Sel) (p : Nat) : Except Cause (Byte × Nat) :=
  if src = 0 then do
    let v ← memRead s p
    pure (v, p + 1)
  else if src = 1 then .ok (s.regA, p)
  else if src = 2 then .ok (s.regB, p)
  else if src = 3 then .ok (s.regC, p)
  else if src = 4 then .ok (s.regD, p)
  else if src = 5 then .ok (s.regE, p)
  else if src = 6 then .ok (s.regF, p)
  else do
    let v ← memRead s (s.ptr.toNat + s.regC.toNat)
    pure (v, p)

/-- `ReadInt(src, p)` (R181). -/
def engineReadInt (s : State) (src : Sel) (p : Nat) : Except Cause (Word × Nat) :=
  if src = 0 then do
    let v ← memRead4 s p
    pure (v, p + 4)
  else if src = 1 then .ok (s.la, p)
  else if src = 2 then .ok (s.lb, p)
  else if src = 3 then .ok (s.lc, p)
  else if src = 4 then .ok (s.lc, p)
  else if src = 5 then .ok (s.ptr, p)
  else if src = 6 then .ok (BitVec.ofNat 32 p, p)
  else .error (.addressing .intRead 7)

/-- `WriteByte(dst, v)` (R162). -/
def engineWriteByte (dst : Sel) (v : Byte) (s : State) : Except Cause State :=
  if dst = 0 then .error (.addressing .byteWrite 0)
  else if dst = 1 then .ok { s with regA := v }
  else if dst = 2 then .ok { s with regB := v }
  else if dst = 3 then .ok { s with regC := v }
  else if dst = 4 then .ok { s with regD := v }
  else if dst = 5 then .ok { s with regE := v }
  else if dst = 6 then .ok { s with regF := v }
  else memWrite s (s.ptr.toNat + s.regC.toNat) v

/-- `WriteInt(dst, v)` (R182). -/
def engineWriteInt (dst : Sel) (v : Word) (s : State) : Except Cause State :=
  if dst = 0 then .error (.addressing .intWrite 0)
  else if dst = 1 then .ok { s with la := v }
  else if dst = 2 then .ok { s with lb := v }
  else if dst = 3 then .ok { s with lc := v }
  else if dst = 4 then .ok (match s.cfg.dst4 with
    | .lc => { s with lc := v }
    | .ld => { s with ld := v })
  else if dst = 5 then .ok { s with ptr := v }
  else if dst = 6 then .ok { s with pc := v }
  else .error (.addressing .intWrite 7)

/-- Fetch (R122 to R126): the instruction register and the fetch pointer `p`, a natural number, past the bytes consumed. -/
def engineFetch (s : State) : Except Cause (IR × Nat) := do
  let op ← memRead s s.pc.toNat
  let p := s.pc.toNat + 1
  match ← engineDecode op with
  | .halt => pure (.halt, p)
  | .out => pure (.out, p)
  | .cmp => pure (.cmp, p)
  | .add => pure (.add, p)
  | .sub => pure (.sub, p)
  | .xor => pure (.xor, p)
  | .aptr => do
    let operand ← memRead s p
    pure (.aptr operand, p + 1)
  | .jez => do
    let operand ← memRead4 s p
    pure (.jez operand, p + 4)
  | .jnz => do
    let operand ← memRead4 s p
    pure (.jnz operand, p + 4)
  | .mv dst src => do
    let (operand, p) ← engineReadByte s src p
    pure (.mv operand src dst, p)
  | .mv32 dst src => do
    let (operand, p) ← engineReadInt s src p
    pure (.mv32 operand src dst, p)

/-- Execute (R127), in the state fetch left. -/
def engineExecute (ir : IR) (s : State) : Except Cause State :=
  match ir with
  | .halt => .ok { s with status := .halted }
  | .out => .ok { s with out := s.out ++ [s.regA] }
  | .jez operand => .ok (if s.regF = 0 then { s with pc := operand } else s)
  | .jnz operand => .ok (if s.regF ≠ 0 then { s with pc := operand } else s)
  | .mv operand _ dst => engineWriteByte dst operand s
  | .mv32 operand _ dst => engineWriteInt dst operand s
  | .cmp => .ok { s with regF := if s.regA = s.regB then 0 else 1 }
  | .add => .ok { s with regA := BitVec.ofNat 8 ((s.regA.toNat + s.regB.toNat) % 256) }
  | .sub => .ok { s with regA := BitVec.ofNat 8 ((s.regA.toNat + 256 - s.regB.toNat) % 256) }
  | .xor => .ok { s with regA := s.regA ^^^ s.regB }
  | .aptr operand => .ok { s with ptr := BitVec.ofNat 32 ((s.ptr.toNat + operand.toNat) % 4294967296) }

/-- Fetch, the one commit of `Pc`, execute (R126, R128). -/
def engineCycle (s : State) : Except Cause State := do
  let (ir, p) ← engineFetch s
  engineExecute ir { s with pc := BitVec.ofNat 32 (p % 4294967296) }

/-- `Step()` as R128 gives it whole, with R238 for a `raise` and R121 for a step asked for outside Running. -/
def engineStep (s : State) : Host.Outcome State Fault Refusal :=
  match s.status with
  | .running =>
    match engineCycle s with
    | .ok t => .next t
    | .error c => .next { s with status := .faulted { cause := c, pc0 := s.pc } }
  | .halted => .refused .stepWhenHalted
  | .faulted _ => .refused .stepWhenFaulted

end Sys2Proof.Machine
end

