-- ==== Sys2Proof/Machine/HostPort.lean ====
section
/-! DEFINITION. The interface to the host as transactions (spec R130 to R136): construction, which is reset with an image,
the single step, the bounded run, and the reads between steps. -/

namespace Sys2Proof.Machine

open Sys2Proof

/-- `Construct(image)`, the one reset event (R270, R34): memory equal to the image, `MEM_SIZE` its length, all else at its
reset value. An image of more than 2^32 bytes is no legal configuration (R7, U17). `MV32_DST4` is the instance's
parameter (R7). -/
def construct (dst4 : Dst4) (image : List Byte) : Host.Outcome State Fault Refusal :=
  if image.length ≤ addressSpace then
    .next { State.reset with mem := Memory.ofBytes 0 image, cfg := { memSize := image.length, dst4 := dst4 } }
  else .refused .imageTooLarge

/-- What the host gets back from `Step` and `Run` (R133). -/
inductive Reply (α : Type) where
  /-- The transaction's normal result, with the state it leaves. -/
  | returned (value : α) (s : State)
  /-- A fault, delivered in place of the normal result (R133, R136, R239), with the faulted state. -/
  | raised (record : FaultRecord) (s : State)
  /-- The request is refused and changes nothing (R121, R134). -/
  | refused (reason : Refusal)
  deriving DecidableEq, Repr

/-- The `Step()` transaction (R133). The `.fault` arm is for the shape of `Outcome`: `step` never answers it. -/
def stepRequest (s : State) : Reply Unit :=
  match step s with
  | .next t =>
    match t.status with
    | .faulted r => .raised r t
    | .running | .halted => .returned () t
  | .fault _ => .refused .stepWhenFaulted
  | .refused r => .refused r

/-- `Run(maxSteps)` (R130): the halted test before the budget test; a fault ends it at once with no boolean (R136). On a
halted instance it takes no step and returns true, on a faulted one it is refused (R134, decision D13). -/
def run : Nat → State → Reply Bool
  | n, s =>
    match s.status with
    | .halted => .returned true s
    | .faulted _ => .refused .stepWhenFaulted
    | .running =>
      match n with
      | 0 => .returned false s
      | k + 1 =>
        match stepRequest s with
        | .returned _ t => run k t
        | .raised r t => .raised r t
        | .refused r => .refused r

/-- `Run` with the host's budget, or with `RUN_DEFAULT_BUDGET` when the host gives none (R130, R133). -/
def runRequest (maxSteps : Option Nat) (s : State) : Reply Bool :=
  match maxSteps with
  | some n => run n s
  | none => run Config.runDefaultBudget s

/-- The register file as the host reads it (R36, R133). -/
structure RegisterView where
  regA : Byte
  regB : Byte
  regC : Byte
  regD : Byte
  regE : Byte
  regF : Byte
  la : Word
  lb : Word
  lc : Word
  ld : Word
  ptr : Word
  pc : Word
  deriving DecidableEq, Repr

/-- "read registers" (R133). -/
def readRegisters (s : State) : RegisterView where
  regA := s.regA
  regB := s.regB
  regC := s.regC
  regD := s.regD
  regE := s.regE
  regF := s.regF
  la := s.la
  lb := s.lb
  lc := s.lc
  ld := s.ld
  ptr := s.ptr
  pc := s.pc

/-- "read output buffer" (R133): the bytes emitted so far, oldest first. -/
def readOutput (s : State) : List Byte := s.out

/-- "read halted flag" (R28, R133). -/
def readHalted (s : State) : Bool := s.status == .halted

/-- "read memory" (R133, R36): the current bytes, from address 0 to `MEM_SIZE - 1`. -/
def readMemory (s : State) : List Byte := (List.range s.cfg.memSize).map (Memory.read s.mem)

end Sys2Proof.Machine
end

