-- ==== Sys2Proof/Safety.lean ====
section
/-! DEFINITION. What counts as a good run, and the invariant of a constructed machine. -/

namespace Sys2Proof.Machine

open Sys2Proof

/-- "A run is over in the good sense when and only when `status = Halted`" (R135). -/
def State.final (s : State) : Prop := s.status = .halted

/-- No fault has been taken: the premise of every claim about a run's result (R240). -/
def State.unfaulted (s : State) : Prop := ∀ r, s.status ≠ .faulted r

/-- The access and selector pairs that an addressing fault of this machine can record (R232). -/
def validAddressing (access : Access) (sel : Sel) : Prop :=
  (access = .byteWrite ∧ sel = 0) ∨ (access = .intRead ∧ sel = 7) ∨ (access = .intWrite ∧ (sel = 0 ∨ sel = 7))

/-- What the record of a fault says of the state it left (R230 to R233, R238): `pc0` is `Pc`; an illegal opcode byte stands
there; the selector is invalid for its access; the address is outside memory. -/
def State.recordOk (s : State) (r : FaultRecord) : Prop :=
  r.pc0 = s.pc ∧
    match r.cause with
    | .decode op => illegalOpcode op = true ∧ s.peek s.pc.toNat = some op
    | .addressing access sel => validAddressing access sel
    | .bounds addr => s.cfg.memSize ≤ addr

/-- The invariant of a constructed machine: a legal `MEM_SIZE` (R7); memory in canonical form with every cell inside it;
`Ld` still 0 when `MV32_DST4 = Lc` (R24); a fault record that fits the state (R238). -/
structure State.Inv (s : State) : Prop where
  memSize_legal : s.cfg.memSize ≤ addressSpace
  mem_wf : Memory.wf s.mem
  mem_inside : ∀ cell ∈ s.mem, cell.1 < s.cfg.memSize
  ld_zero : s.cfg.dst4 = .lc → s.ld = 0
  record_ok : ∀ r, s.status = .faulted r → s.recordOk r

/-- A program that never faults within `n` steps: the run neither raises nor is refused (R135, R240). -/
def safeRun (n : Nat) (s : State) : Prop := ∃ halted t, run n s = .returned halted t

/-- No byte stands at `Pc + k`, every lower byte of the instruction is there: fetch's first missing byte (R54, R59). -/
def firstMissing (s : State) (k : Nat) : Prop :=
  s.peek (s.pc.toNat + k) = none ∧ ∀ j, j < k → s.peek (s.pc.toNat + j) ≠ none

/-- The whole rule of a one-byte instruction (format `N`): its encoding, its effect, and that a step on its opcode byte has
that effect or, with no byte at `Pc`, takes the bounds fault of the opcode fetch and nothing else (R82, R237). -/
def oneByteRule (op : Byte) (i : Instr) (effect : State → State) : Prop :=
  encode i = [op] ∧
    ∀ s, exec i s = .next (effect s) ∧
      (s.status = .running →
        (s.peek s.pc.toNat = some op → step s = .next (effect s)) ∧
          (firstMissing s 0 → step s = .next (s.raise (.bounds s.pc.toNat))))

/-- The seven register and immediate sources of MV in a state: the instruction by destination, the value its source
resolves to, its length (R161, selectors 0 to 6). -/
def mvPlainSources (s : State) (imm8 : Byte) : List ((ByteDst → Instr) × Byte × Word) :=
  [(fun dst => .mvImm dst imm8, imm8, 2), (.mvA, s.regA, 1), (.mvB, s.regB, 1), (.mvC, s.regC, 1), (.mvD, s.regD, 1),
    (.mvE, s.regE, 1), (.mvF, s.regF, 1)]

/-- All eight sources of MV in a state whose `Ptr + C` is inside memory (R161): the seven above and selector 7, the byte at
`Ptr + C`. -/
def mvSources (s : State) (imm8 : Byte) : List ((ByteDst → Instr) × Byte × Word) :=
  mvPlainSources s imm8 ++ [(.mvInd, Memory.read s.mem s.effectiveAddr, 1)]

/-- The seven valid sources of MV32 in a state (R181, selectors 0 to 6): source 4 reads `Lc`, source 6 the address of the
next instruction. -/
def mv32Sources (s : State) (imm32 : Word) : List ((IntDst → Instr) × Word × Word) :=
  [(fun dst => .mv32Imm dst imm32, imm32, 5), (.mv32La, s.la, 1), (.mv32Lb, s.lb, 1), (.mv32Lc, s.lc, 1),
    (.mv32LcAlias, s.lc, 1), (.mv32Ptr, s.ptr, 1), (.mv32Pc, s.pc + 1, 1)]

end Sys2Proof.Machine
end

