-- ==== Sys2Proof/Certificates/Slice0/Obligations.lean ====
section
/-! DEFINITION. The statements for the provers. Each docstring names the rules of the spec it formalises, and where a clause
rests on one of the spec's own decisions (D<n> of 92_eei_decisions.md) or on a choice of the model (log <n>). Throughout, to
raise a fault is to answer a NEXT state whose status is Faulted (R238, decision D10, log 4) and whose `Pc` is `pc0` (decision
D11, log 9). -/

open Sys2Proof Sys2Proof.Machine

/-! ### Encoding -/

/-- Decoding an encoded instruction gives it back and leaves the bytes after it alone (R80 to R88). -/
def Obligations.DecodeAfterEncode : Prop :=
  ∀ (i : Instr) (rest : List Byte), decode (encode i ++ rest) = .ok (i, rest)

/-- Every byte list that decodes is the encoding of its instruction followed by the bytes left over: one meaning a word, and
no byte of an instruction unread (R80 to R88). -/
def Obligations.EncodeAfterDecode : Prop :=
  ∀ (bytes rest : List Byte) (i : Instr), decode bytes = .ok (i, rest) → bytes = encode i ++ rest

/-- The bytes of all 25 rows by the arithmetic of R85, R86 and R99: `0x40 + 8*sel(d) + sel(s)` for MV, `0x80 + 8*sel(d) +
sel(s)` for MV32, the immediate after it with its least significant byte first. -/
def Obligations.EncodingFormulas : Prop :=
  (∀ w : Word, encode (.jez w) = 0x21 :: splitLe w ∧ encode (.jnz w) = 0x22 :: splitLe w) ∧
  (encode .halt = [0x01] ∧ encode .out = [0x02] ∧ encode .cmp = [0xC1] ∧ encode .add = [0xC2] ∧ encode .sub = [0xC3] ∧
    encode .xor = [0xC4] ∧ ∀ b : Byte, encode (.aptr b) = [0xE1, b]) ∧
  (∀ (place : ByteDst) (b : Byte),
    encode (.mvImm place b) = [BitVec.ofNat 8 (0x40 + 8 * place.sel.toNat), b] ∧
    encode (.mvA place) = [BitVec.ofNat 8 (0x40 + 8 * place.sel.toNat + 1)] ∧
    encode (.mvB place) = [BitVec.ofNat 8 (0x40 + 8 * place.sel.toNat + 2)] ∧
    encode (.mvC place) = [BitVec.ofNat 8 (0x40 + 8 * place.sel.toNat + 3)] ∧
    encode (.mvD place) = [BitVec.ofNat 8 (0x40 + 8 * place.sel.toNat + 4)] ∧
    encode (.mvE place) = [BitVec.ofNat 8 (0x40 + 8 * place.sel.toNat + 5)] ∧
    encode (.mvF place) = [BitVec.ofNat 8 (0x40 + 8 * place.sel.toNat + 6)] ∧
    encode (.mvInd place) = [BitVec.ofNat 8 (0x40 + 8 * place.sel.toNat + 7)]) ∧
  (∀ (place : IntDst) (w : Word),
    encode (.mv32Imm place w) = BitVec.ofNat 8 (0x80 + 8 * place.sel.toNat) :: splitLe w ∧
    encode (.mv32La place) = [BitVec.ofNat 8 (0x80 + 8 * place.sel.toNat + 1)] ∧
    encode (.mv32Lb place) = [BitVec.ofNat 8 (0x80 + 8 * place.sel.toNat + 2)] ∧
    encode (.mv32Lc place) = [BitVec.ofNat 8 (0x80 + 8 * place.sel.toNat + 3)] ∧
    encode (.mv32LcAlias place) = [BitVec.ofNat 8 (0x80 + 8 * place.sel.toNat + 4)] ∧
    encode (.mv32Ptr place) = [BitVec.ofNat 8 (0x80 + 8 * place.sel.toNat + 5)] ∧
    encode (.mv32Pc place) = [BitVec.ofNat 8 (0x80 + 8 * place.sel.toNat + 6)] ∧
    encode (.mv32Src7 place) = [BitVec.ofNat 8 (0x80 + 8 * place.sel.toNat + 7)])

/-- A few words written out from the encoding tables of R82 to R86 decode to the instructions they stand for. -/
def Obligations.SampleWordsDecode : Prop :=
  decode [0b00000001] = .ok (.halt, []) ∧ decode [0b00000010] = .ok (.out, []) ∧
  decode [0b00100001, 0x34, 0x12, 0x00, 0x00] = .ok (.jez 0x00001234, []) ∧
  decode [0b11000011] = .ok (.sub, []) ∧ decode [0b11100001, 0x05] = .ok (.aptr 0x05, []) ∧
  decode [0b01001000, 0x2A] = .ok (.mvImm .a 0x2A, []) ∧ decode [0b01111001] = .ok (.mvA .indirect, []) ∧
  decode [0b10101000, 0x78, 0x56, 0x34, 0x12] = .ok (.mv32Imm .ptr 0x12345678, []) ∧
  decode [0b10001110] = .ok (.mv32Pc .la, []) ∧ decode [0b10100011] = .ok (.mv32Lc .l4, [])

/-- R90: the illegal opcode bytes are the 119 listed, exactly those that are no fixed opcode and have top bits `00` or `11`;
the decoder rejects exactly those; fetching one raises `DecodeFault(op)`. -/
def Obligations.IllegalOpcodesRaiseDecodeFault : Prop :=
  (∀ op : Byte, illegalOpcode op = true ↔
    (op ∉ [0x01, 0x02, 0x21, 0x22, 0xC1, 0xC2, 0xC3, 0xC4, 0xE1] ∧ (opTop op = 0b00 ∨ opTop op = 0b11))) ∧
  ((List.range 256).filter (fun n => illegalOpcode (BitVec.ofNat 8 n))).length = 119 ∧
  (∀ (op : Byte) (rest : List Byte), decode (op :: rest) = .error (.unknownOpcode op) ↔ illegalOpcode op = true) ∧
  (∀ (s : State) (op : Byte), s.status = .running → s.peek s.pc.toNat = some op → illegalOpcode op = true →
    step s = .next (s.raise (.decode op)))

/-- R89: the length of an instruction is a function of its opcode byte alone; an illegal byte has none. -/
def Obligations.LengthIsFixedByOpcode : Prop :=
  (∀ (op : Byte) (tail rest : List Byte) (i : Instr), decode (op :: tail) = .ok (i, rest) →
    opcodeLength op = some (encode i).length ∧ (op :: tail).length = (encode i).length + rest.length) ∧
  (∀ op : Byte, opcodeLength op = none ↔ illegalOpcode op = true)

/-- The decoder's rows and the two-stage `Decode` of R83 agree on every opcode byte: on its kind, on the destination and the
source selector of the moves, and on which bytes to reject. -/
def Obligations.RowsAgreeWithDecodeTable : Prop :=
  (∀ (op : Byte) (tail rest : List Byte) (i : Instr), decode (op :: tail) = .ok (i, rest) →
    engineDecode op = .ok (decodedOf i) ∧ (decodedOf i).kind = i.kind) ∧
  (∀ op : Byte, engineDecode op = .error (.decode op) ↔ illegalOpcode op = true)

/-- R91: the always-faulting move forms raise a fault in every state; every other instruction completes in some state; that
leaves 56 MV and 42 MV32 opcode bytes that can complete. The faults of destination selector 0 are decision D6. -/
def Obligations.AlwaysFaultingForms : Prop :=
  (∀ (i : Instr) (s : State), i.completable = false → ∃ c, exec i s = .next (s.raise c)) ∧
  (∀ i : Instr, i.completable = true → ∃ s t, s.status = .running ∧ exec i s = .next t ∧ t.unfaulted) ∧
  ((List.range 256).filter (fun n =>
    match decode [BitVec.ofNat 8 n, 0, 0, 0, 0] with
    | .ok (i, _) => i.kind == .mv && i.completable
    | .error _ => false)).length = 56 ∧
  ((List.range 256).filter (fun n =>
    match decode [BitVec.ofNat 8 n, 0, 0, 0, 0] with
    | .ok (i, _) => i.kind == .mv32 && i.completable
    | .error _ => false)).length = 42

/-! ### The step -/

/-- When the bytes at `Pc` decode to an instruction, the step of a running machine is that instruction's execution; `step`
adds nothing around `exec`, which moves `Pc` itself (R120, R127). -/
def Obligations.StepRunsDecodedInstruction : Prop :=
  ∀ (s : State) (i : Instr) (rest : List Byte), s.status = .running →
    decode (codeBytes s s.pc.toNat 5) = .ok (i, rest) → step s = exec i s

/-- When memory holds the bytes of an instruction from `Pc` upward, the step of a running machine is its execution, whatever
stands after them or whether memory ends there (R122 to R124, R80). -/
def Obligations.BytesInMemoryRun : Prop :=
  ∀ (s : State) (i : Instr), s.status = .running →
    (∀ (k : Nat) (b : Byte), (encode i)[k]? = some b → s.peek (s.pc.toNat + k) = some b) → step s = exec i s

/-- A byte of an instruction missing at the end of memory raises `BoundsFault` on its address, the lowest one missing, before
any fault of the instruction itself; nothing wraps to address 0 (R54, R59, R122, R236). Reporting the lowest address is
decision D20. -/
def Obligations.MissingByteRaisesBoundsFault : Prop :=
  ∀ (s : State) (k : Nat), s.status = .running → firstMissing s k →
    (k = 0 ∨ ∃ op len, s.peek s.pc.toNat = some op ∧ opcodeLength op = some len ∧ k < len) →
    step s = .next (s.raise (.bounds (s.pc.toNat + k)))

/-- The step by decoded rows is the engine's step as the spec writes it out, in every state: R128 with R83, R161, R162, R181,
R182 and R127, a `raise` as in R238, a step outside Running refused as in R121 (decision D13, log 5). Both sides follow the
spec's decisions D3 to D11 and D20; log 8 says how the two differ in the order of their reads. -/
def Obligations.StepRefinesEngine : Prop :=
  ∀ s : State, step s = engineStep s

/-- A running machine always has a next state, the fault outcome of R10 included: a fault is taken as a next state with status
Faulted (R238, decision D10, log 4). A halted or a faulted machine has none, for ever (R121, R240): the refusal is decision D13
(log 5). -/
def Obligations.OnlyRunningMachinesStep : Prop :=
  (∀ s : State, s.status = .running → ∃ t, step s = .next t) ∧
  (∀ s : State, s.status = .halted → step s = .refused .stepWhenHalted) ∧
  (∀ (s : State) (r : FaultRecord), s.status = .faulted r → step s = .refused .stepWhenFaulted)

/-- The status moves only out of Running, and into Halted exactly when the opcode byte at `Pc` is `0x01` (R28, R29). -/
def Obligations.OnlyHaltHalts : Prop :=
  State.reset.status = .running ∧
  ∀ s t : State, step s = .next t → s.status = .running ∧ (t.status = .halted ↔ s.peek s.pc.toNat = some 0x01)

/-- `Pc` after a step that does not fault: past the instruction, modulo 2^32, but for a taken branch and MV32 with destination
`Pc` (R26). The wrap is decision D3 (log 18), that destination selector 6, opcode bytes 0xB0 to 0xB6, is `Pc` decision D7
(log 12). -/
def Obligations.PcAfterStep : Prop :=
  ∀ s t : State, step s = .next t → t.unfaulted →
    ∃ op len, s.peek s.pc.toNat = some op ∧ opcodeLength op = some len ∧
      (t.pc = s.pc + BitVec.ofNat 32 len ∨ (op = 0x21 ∧ s.regF = 0) ∨ (op = 0x22 ∧ s.regF ≠ 0) ∨
        (0xB0 ≤ op ∧ op ≤ 0xB6))

/-! ### Faults -/

/-- Faults are precise: a faulting step began in Running, and changes nothing but the status, which records `Pc` as `pc0`
(R238; that `Pc` stays is decision D11, the status Faulted decision D10). -/
def Obligations.FaultsArePrecise : Prop :=
  ∀ (s t : State) (r : FaultRecord), step s = .next t → t.status = .faulted r →
    s.status = .running ∧ r.pc0 = s.pc ∧ t = { s with status := .faulted r }

/-- Which opcode bytes can raise which fault, and what it records (R230 to R233, R237). That destination selector 0 faults is
decision D6 (log 12), that `Ptr + C` is not wrapped decision D4 (log 10). -/
def Obligations.FaultCauses : Prop :=
  ∀ (s t : State) (r : FaultRecord), step s = .next t → t.status = .faulted r →
    match r.cause with
    | .decode op => s.peek s.pc.toNat = some op ∧ illegalOpcode op = true
    | .addressing access sel =>
      ∃ op, s.peek s.pc.toNat = some op ∧
        ((access = .byteWrite ∧ sel = 0 ∧ 0x40 ≤ op ∧ op ≤ 0x47) ∨
          (access = .intRead ∧ sel = 7 ∧ opTop op = 0b10 ∧ opSrc op = 7) ∨
          (access = .intWrite ∧ sel = 0 ∧ 0x80 ≤ op ∧ op ≤ 0x86) ∨
          (access = .intWrite ∧ sel = 7 ∧ 0xB8 ≤ op ∧ op ≤ 0xBE))
    | .bounds addr =>
      s.cfg.memSize ≤ addr ∧
        (addr = s.pc.toNat ∨
          ∃ op len, s.peek s.pc.toNat = some op ∧ opcodeLength op = some len ∧
            ((s.pc.toNat < addr ∧ addr < s.pc.toNat + len) ∨
              (opTop op = 0b01 ∧ (opSrc op = 7 ∨ opDst op = 7) ∧ addr = s.ptr.toNat + s.regC.toNat)))

/-! ### HALT and OUT -/

/-- HALT: the whole of R140, with no step (R121) and a true `Run` (R134) after it, and no other way to `Halted`. That a step
after HALT is refused and a `Run` returns true is decision D13 (logs 5 and 14). What a raised fault leaves is R238, here and in
the other instruction rules. -/
def Obligations.HaltStopsTheMachine : Prop :=
  oneByteRule 0x01 .halt (fun s => { s with pc := s.pc + 1, status := .halted }) ∧
  (∀ s t : State, exec .halt s = .next t → step t = .refused .stepWhenHalted ∧ ∀ n, run n t = .returned true t) ∧
  ∀ s t : State, step s = .next t → t.status = .halted → s.peek s.pc.toNat = some 0x01

/-- OUT (R141): the whole rule; exactly the byte in `A` is appended and nothing else but `Pc` changes. -/
def Obligations.OutAppendsA : Prop :=
  oneByteRule 0x02 .out (fun s => { s with pc := s.pc + 1, out := s.out ++ [s.regA] })

/-! ### JEZ and JNZ -/

/-- JEZ (R150): the whole rule. The operand bytes are fetched, and can fault, whether or not the branch is taken; the target
is not checked, and one outside memory faults at the next opcode fetch. -/
def Obligations.JezJumpsWhenFIsZero : Prop :=
  (∀ (a : Word) (s : State), exec (.jez a) s = .next { s with pc := if s.regF = 0x00 then a else s.pc + 5 }) ∧
  ∀ s : State, s.status = .running →
    (∀ b0 b1 b2 b3 : Byte, s.peek s.pc.toNat = some 0x21 → s.peek (s.pc.toNat + 1) = some b0 →
      s.peek (s.pc.toNat + 2) = some b1 → s.peek (s.pc.toNat + 3) = some b2 → s.peek (s.pc.toNat + 4) = some b3 →
      step s = .next { s with pc := if s.regF = 0x00 then b3 ++ b2 ++ b1 ++ b0 else s.pc + 5 }) ∧
    (∀ k, k < 5 → firstMissing s k → (k = 0 ∨ s.peek s.pc.toNat = some 0x21) →
      step s = .next (s.raise (.bounds (s.pc.toNat + k)))) ∧
    (∀ a : Word, s.regF = 0x00 → s.cfg.memSize ≤ a.toNat → ∃ t, exec (.jez a) s = .next t ∧
      step t = .next { t with status := .faulted { cause := .bounds a.toNat, pc0 := a } })

/-- JNZ (R151): the whole rule; the test is on all eight bits of `F`, and the faults are as for JEZ. -/
def Obligations.JnzJumpsWhenFIsNotZero : Prop :=
  (∀ (a : Word) (s : State), exec (.jnz a) s = .next { s with pc := if s.regF ≠ 0x00 then a else s.pc + 5 }) ∧
  ∀ s : State, s.status = .running →
    (∀ b0 b1 b2 b3 : Byte, s.peek s.pc.toNat = some 0x22 → s.peek (s.pc.toNat + 1) = some b0 →
      s.peek (s.pc.toNat + 2) = some b1 → s.peek (s.pc.toNat + 3) = some b2 → s.peek (s.pc.toNat + 4) = some b3 →
      step s = .next { s with pc := if s.regF ≠ 0x00 then b3 ++ b2 ++ b1 ++ b0 else s.pc + 5 }) ∧
    (∀ k, k < 5 → firstMissing s k → (k = 0 ∨ s.peek s.pc.toNat = some 0x22) →
      step s = .next (s.raise (.bounds (s.pc.toNat + k)))) ∧
    (∀ a : Word, s.regF ≠ 0x00 → s.cfg.memSize ≤ a.toNat → ∃ t, exec (.jnz a) s = .next t ∧
      step t = .next { t with status := .faulted { cause := .bounds a.toNat, pc0 := a } })

/-! ### CMP, ADD, SUB, XOR, APTR -/

/-- CMP (R200): the whole rule; `F` becomes 0 or 1 in all its bits. -/
def Obligations.CmpWritesInequalityToF : Prop :=
  oneByteRule 0xC1 .cmp (fun s => { s with pc := s.pc + 1, regF := if s.regA = s.regB then 0x00 else 0x01 })

/-- ADD (R201): the whole rule; the sum modulo 256, `F` untouched. -/
def Obligations.AddWrapsModulo256 : Prop :=
  oneByteRule 0xC2 .add
    (fun s => { s with pc := s.pc + 1, regA := BitVec.ofNat 8 ((s.regA.toNat + s.regB.toNat) % 256) })

/-- SUB (R202): the whole rule; the difference modulo 256, `F` untouched. -/
def Obligations.SubWrapsModulo256 : Prop :=
  oneByteRule 0xC3 .sub
    (fun s => { s with pc := s.pc + 1, regA := BitVec.ofNat 8 ((s.regA.toNat + 256 - s.regB.toNat) % 256) })

/-- XOR (R203): the whole rule; bit by bit, `F` untouched. -/
def Obligations.XorIsBitwise : Prop :=
  oneByteRule 0xC4 .xor (fun s => { s with pc := s.pc + 1, regA := s.regA ^^^ s.regB }) ∧
  ∀ s t : State, exec .xor s = .next t → ∀ k, t.regA.getLsbD k = (s.regA.getLsbD k ^^ s.regB.getLsbD k)

/-- APTR (R220): the unsigned byte is added into all of `Ptr` modulo 2^32; the reading is decision D9. -/
def Obligations.AptrAddsUnsignedByte : Prop :=
  (∀ (n : Byte) (s : State), exec (.aptr n) s =
    .next { s with pc := s.pc + 2, ptr := BitVec.ofNat 32 ((s.ptr.toNat + n.toNat) % 4294967296) }) ∧
  ∀ s : State, s.status = .running →
    (∀ n : Byte, s.peek s.pc.toNat = some 0xE1 → s.peek (s.pc.toNat + 1) = some n →
      step s = .next { s with pc := s.pc + 2, ptr := BitVec.ofNat 32 ((s.ptr.toNat + n.toNat) % 4294967296) }) ∧
    (∀ k, k < 2 → firstMissing s k → (k = 0 ∨ s.peek s.pc.toNat = some 0xE1) →
      step s = .next (s.raise (.bounds (s.pc.toNat + k))))

/-- CMP and then a branch: equal operands take JEZ and not JNZ, unequal ones JNZ and not JEZ (R152, clause (a)). -/
def Obligations.CmpThenBranch : Prop :=
  ∀ (s : State) (a : Word), ∃ t, exec .cmp s = .next t ∧
    (s.regA = s.regB → exec (.jez a) t = .next { t with pc := a } ∧ exec (.jnz a) t = .next { t with pc := t.pc + 5 }) ∧
    (s.regA ≠ s.regB → exec (.jez a) t = .next { t with pc := t.pc + 5 } ∧ exec (.jnz a) t = .next { t with pc := a })

/-! ### MV -/

/-- MV from an immediate or a register to each of the six registers: the register takes the value, `Pc` the length, nothing
else changes (R160 to R163). Constructors mvImm, mvA to mvF. The destination numbering is decision D5. -/
def Obligations.MvToRegister : Prop :=
  ∀ (s : State) (imm8 : Byte), ∀ row ∈ mvPlainSources s imm8,
    exec (row.1 .a) s = .next { s with pc := s.pc + row.2.2, regA := row.2.1 } ∧
    exec (row.1 .b) s = .next { s with pc := s.pc + row.2.2, regB := row.2.1 } ∧
    exec (row.1 .c) s = .next { s with pc := s.pc + row.2.2, regC := row.2.1 } ∧
    exec (row.1 .d) s = .next { s with pc := s.pc + row.2.2, regD := row.2.1 } ∧
    exec (row.1 .e) s = .next { s with pc := s.pc + row.2.2, regE := row.2.1 } ∧
    exec (row.1 .f) s = .next { s with pc := s.pc + row.2.2, regF := row.2.1 }

/-- MV from `[Ptr+C]` to each of the six registers: the byte at `Ptr + C`, the old `C` addressing it (R161, R164, R165). With
`Ptr + C` outside memory every destination takes the bounds fault of the read, destination 0 too, and a sum of 2^32 or more is
outside every legal memory: it does not wrap (R58, decision D4). Constructor mvInd. -/
def Obligations.MvLoadsByteAtPtrPlusC : Prop :=
  (∀ (s : State) (v : Byte), s.peek (s.ptr.toNat + s.regC.toNat) = some v →
    exec (.mvInd .a) s = .next { s with pc := s.pc + 1, regA := v } ∧
    exec (.mvInd .b) s = .next { s with pc := s.pc + 1, regB := v } ∧
    exec (.mvInd .c) s = .next { s with pc := s.pc + 1, regC := v } ∧
    exec (.mvInd .d) s = .next { s with pc := s.pc + 1, regD := v } ∧
    exec (.mvInd .e) s = .next { s with pc := s.pc + 1, regE := v } ∧
    exec (.mvInd .f) s = .next { s with pc := s.pc + 1, regF := v }) ∧
  (∀ (s : State) (dst : ByteDst), s.peek (s.ptr.toNat + s.regC.toNat) = none →
    exec (.mvInd dst) s = .next (s.raise (.bounds (s.ptr.toNat + s.regC.toNat)))) ∧
  (∀ (s : State) (dst : ByteDst), s.cfg.wf = true → 4294967296 ≤ s.ptr.toNat + s.regC.toNat →
    exec (.mvInd dst) s = .next (s.raise (.bounds (s.ptr.toNat + s.regC.toNat))))

/-- MV to `[Ptr+C]`: the byte at `Ptr + C` becomes the source's value, every other byte reads as before, `Pc` moves past the
instruction and nothing else changes; with `Ptr + C`, which is not wrapped (decision D4, log 10), outside memory the bounds
fault of the write (R55, R58, R162, R164).
Constructors mvImm, mvA to mvF with destination selector 7. -/
def Obligations.MvStoresOneByte : Prop :=
  ∀ (s : State) (imm8 : Byte), ∀ row ∈ mvPlainSources s imm8,
    (s.effectiveAddr < s.cfg.memSize → ∃ m, exec (row.1 .indirect) s = .next { s with pc := s.pc + row.2.2, mem := m } ∧
      ∀ addr, s.effectiveAddr = addr →
        Memory.read m addr = row.2.1 ∧ ∀ other, other ≠ addr → Memory.read m other = Memory.read s.mem other) ∧
    (s.cfg.memSize ≤ s.effectiveAddr → exec (row.1 .indirect) s = .next (s.raise (.bounds s.effectiveAddr)))

/-- MV `[Ptr+C]`, `[Ptr+C]` (`0x7F`) writes back the byte it read: nothing changes but `Pc` (R163). Canonical memory is the
premise that makes unchanged contents an unchanged state (log 6). -/
def Obligations.MvIndirectToItself : Prop :=
  ∀ s : State, Memory.wf s.mem → s.effectiveAddr < s.cfg.memSize →
    exec (.mvInd .indirect) s = .next { s with pc := s.pc + 1 }

/-- MV to selector 0 has no place to write: `AddressingFault(ByteWrite, 0)` once the source is resolved (R162, R163, R236;
decision D6). Constructors mvImm, mvA to mvF, mvInd with destination selector 0. -/
def Obligations.MvToSelectorZeroFaults : Prop :=
  (∀ (s : State) (imm8 : Byte), ∀ row ∈ mvPlainSources s imm8,
    exec (row.1 .immediate) s = .next (s.raise (.addressing .byteWrite 0))) ∧
  (∀ s : State, s.effectiveAddr < s.cfg.memSize →
    exec (.mvInd .immediate) s = .next (s.raise (.addressing .byteWrite 0)))

/-! ### MV32 -/

/-- MV32 from each of its seven valid sources to each of its six valid destinations (R180 to R185). Source 4 reads `Lc`,
source 6 reads `pc0 + 1`, destination 6 is a jump that overrides the advance, destination 4 writes the register named by
`MV32_DST4` (both values; decision D8, log 2). The destination numbering is decision D7. Constructors mv32Imm, mv32La,
mv32Lb, mv32Lc, mv32LcAlias, mv32Ptr, mv32Pc. -/
def Obligations.Mv32ToRegister : Prop :=
  ∀ (s : State) (imm32 : Word), ∀ row ∈ mv32Sources s imm32,
    exec (row.1 .la) s = .next { s with pc := s.pc + row.2.2, la := row.2.1 } ∧
    exec (row.1 .lb) s = .next { s with pc := s.pc + row.2.2, lb := row.2.1 } ∧
    exec (row.1 .lc) s = .next { s with pc := s.pc + row.2.2, lc := row.2.1 } ∧
    (s.cfg.dst4 = .lc → exec (row.1 .l4) s = .next { s with pc := s.pc + row.2.2, lc := row.2.1 }) ∧
    (s.cfg.dst4 = .ld → exec (row.1 .l4) s = .next { s with pc := s.pc + row.2.2, ld := row.2.1 }) ∧
    exec (row.1 .ptr) s = .next { s with pc := s.pc + row.2.2, ptr := row.2.1 } ∧
    exec (row.1 .pc) s = .next { s with pc := row.2.1 }

/-- MV32 with source selector 7 raises `AddressingFault(IntRead, 7)` whatever its destination, destination 7 too: that is the
whole effect of the row mv32Src7 (R181, R236). -/
def Obligations.Mv32SourceSevenFaults : Prop :=
  (∀ (s : State) (dst : IntDst), exec (.mv32Src7 dst) s = .next (s.raise (.addressing .intRead 7))) ∧
  (∀ (s : State) (op : Byte), s.status = .running → s.peek s.pc.toNat = some op → opTop op = 0b10 → opSrc op = 7 →
    step s = .next (s.raise (.addressing .intRead 7)))

/-- MV32 with a valid source and destination selector 0 or 7 raises `AddressingFault(IntWrite, …)` (R182; selector 0 is
decision D6). -/
def Obligations.Mv32InvalidDestinationFaults : Prop :=
  ∀ (s : State) (imm32 : Word), ∀ row ∈ mv32Sources s imm32,
    exec (row.1 .immediate) s = .next (s.raise (.addressing .intWrite 0)) ∧
    exec (row.1 .indirect) s = .next (s.raise (.addressing .intWrite 7))

/-! ### Whole-machine rules -/

/-- Which opcode bytes can change which piece of state (R35, with R27 for `F`, R24 for `Ld`, R127 for memory, R33 for the
output, R32 for the parameters). The opcode bytes are those of R84 to R86. That MV destinations 1 to 6, bytes 0x48 to 0x77, are
`A` to `F` as in R21 is decision D5; that MV32 destinations 1, 2, 3 and 5 are `La`, `Lb`, `Lc` and `Ptr` is decision D7 (both
log 12); that destination 4, bytes 0xA0 to 0xA6, is `Lc` or `Ld` by the parameter is decision D8 (log 2). -/
def Obligations.WritersOfEachPiece : Prop :=
  ∀ (s t : State) (op : Byte), step s = .next t → s.peek s.pc.toNat = some op →
    (t.regA ≠ s.regA → op = 0xC2 ∨ op = 0xC3 ∨ op = 0xC4 ∨ (0x48 ≤ op ∧ op ≤ 0x4F)) ∧
    (t.regB ≠ s.regB → 0x50 ≤ op ∧ op ≤ 0x57) ∧
    (t.regC ≠ s.regC → 0x58 ≤ op ∧ op ≤ 0x5F) ∧
    (t.regD ≠ s.regD → 0x60 ≤ op ∧ op ≤ 0x67) ∧
    (t.regE ≠ s.regE → 0x68 ≤ op ∧ op ≤ 0x6F) ∧
    (t.regF ≠ s.regF → op = 0xC1 ∨ (0x70 ≤ op ∧ op ≤ 0x77)) ∧
    (t.la ≠ s.la → 0x88 ≤ op ∧ op ≤ 0x8E) ∧
    (t.lb ≠ s.lb → 0x90 ≤ op ∧ op ≤ 0x96) ∧
    (t.lc ≠ s.lc → (0x98 ≤ op ∧ op ≤ 0x9E) ∨ (s.cfg.dst4 = .lc ∧ 0xA0 ≤ op ∧ op ≤ 0xA6)) ∧
    (t.ld ≠ s.ld → s.cfg.dst4 = .ld ∧ 0xA0 ≤ op ∧ op ≤ 0xA6) ∧
    (t.ptr ≠ s.ptr → op = 0xE1 ∨ (0xA8 ≤ op ∧ op ≤ 0xAE)) ∧
    (t.mem ≠ s.mem → 0x78 ≤ op ∧ op ≤ 0x7F) ∧
    (t.out ≠ s.out → op = 0x02 ∧ t.out = s.out ++ [s.regA]) ∧
    t.cfg = s.cfg

/-- "`Ld` cannot be read by any instruction" (R24): the step of two states that differ in `Ld` alone gives states that differ
in `Ld` at most. -/
def Obligations.LdIsUnreadable : Prop :=
  ∀ (s : State) (v : Word),
    match step s with
    | .next t => ∃ w, step { s with ld := v } = .next { t with ld := w }
    | .fault r => step { s with ld := v } = .fault r
    | .refused r => step { s with ld := v } = .refused r

/-- "No instruction reads it, so a program cannot observe it" (R33): the output only grows, and what it held before a step
influences nothing but itself. -/
def Obligations.OutputIsUnreadable : Prop :=
  ∀ (s : State) (earlier : List Byte),
    match step s with
    | .next t => ∃ new, t.out = s.out ++ new ∧ step { s with out := earlier } = .next { t with out := earlier ++ new }
    | .fault r => step { s with out := earlier } = .fault r
    | .refused r => step { s with out := earlier } = .refused r

/-- Fetch is coherent with stores (R64), for each of the eight sources of MV and every byte it stores: if the byte stored is
byte `k` of an instruction whose other bytes stand from the next `Pc` upward, the next step executes that instruction; if it
is an illegal opcode byte stored at the next `Pc`, the next step raises `DecodeFault` of it. -/
def Obligations.StoredByteIsFetchedNext : Prop :=
  ∀ (s : State) (imm8 : Byte), s.status = .running → s.effectiveAddr < s.cfg.memSize → ∀ row ∈ mvSources s imm8,
    ∃ t, exec (row.1 .indirect) s = .next t ∧ t.pc = s.pc + row.2.2 ∧
      (∀ (i : Instr) (k : Nat), (encode i)[k]? = some row.2.1 → s.effectiveAddr = (s.pc + row.2.2).toNat + k →
        (∀ (j : Nat) (b : Byte), j ≠ k → (encode i)[j]? = some b → s.peek ((s.pc + row.2.2).toNat + j) = some b) →
        step t = exec i t) ∧
      (s.effectiveAddr = (s.pc + row.2.2).toNat → illegalOpcode row.2.1 = true →
        step t = .next (t.raise (.decode row.2.1)))

/-! ### Reset and the invariant -/

/-- Reset with an image (R34): every register zero, running, empty output, memory the image and nothing beyond it. The bound
on the image is decision D1 (log 14). -/
def Obligations.ConstructionSetsResetValues : Prop :=
  ∀ (d : Dst4) (image : List Byte), image.length ≤ addressSpace →
    ∃ s, construct d image = .next s ∧
      s.regA = 0 ∧ s.regB = 0 ∧ s.regC = 0 ∧ s.regD = 0 ∧ s.regE = 0 ∧ s.regF = 0 ∧
      s.la = 0 ∧ s.lb = 0 ∧ s.lc = 0 ∧ s.ld = 0 ∧ s.ptr = 0 ∧ s.pc = 0 ∧
      s.status = .running ∧ s.out = [] ∧ s.cfg.memSize = image.length ∧ s.cfg.dst4 = d ∧
      ∀ i, s.peek i = image[i]?

/-- The model's reset state is the construction with the empty image and `MV32_DST4 = Lc` (log 1 and log 2, the model's
choice); its first step raises `BoundsFault(0)` (R272). -/
def Obligations.ResetIsTheEmptyImage : Prop :=
  construct .lc [] = .next State.reset ∧ step State.reset = .next (State.reset.raise (.bounds 0))

/-- The invariant holds after the model's reset, the construction with the empty image (logs 1 and 2). -/
def Obligations.ResetHasInvariant : Prop := State.reset.Inv

/-- The invariant holds after the construction with any image that fits the address space (decision D1, log 14). -/
def Obligations.ConstructionHasInvariant : Prop :=
  ∀ (d : Dst4) (image : List Byte) (s : State), construct d image = .next s → s.Inv

/-- Every step keeps the invariant: legal memory size, canonical memory inside it, `Ld` still 0 when `MV32_DST4 = Lc` (R24),
every fault record fitting the state it left (R230 to R233, R238). The canonical form is log 6, `MV32_DST4` decision D8
(log 2), the faulted state and its `Pc` decisions D10 and D11 (logs 4 and 9). -/
def Obligations.StepKeepsInvariant : Prop :=
  ∀ s t : State, s.Inv → step s = .next t → t.Inv

/-- What the host reads of memory is the byte at every valid address, from 0 to `MEM_SIZE - 1`, and no more (R36, R50,
R52). -/
def Obligations.HostReadsEveryByte : Prop :=
  ∀ (s : State) (i : Nat), (readMemory s)[i]? = s.peek i

/-! ### The run loop -/

/-- `Run` is repeated `Step` (R131): false after exactly `N` steps of a program that does not halt within them; true, in the
state of the halting step, when the program halts at its `k`-th step with `k <= N`. -/
def Obligations.RunIsRepeatedStep : Prop :=
  ∀ (s : State) (n : Nat), s.status = .running →
    (∀ t, run n s = .returned false t ↔ Host.Core.run core n s = .next t ∧ t.status = .running) ∧
    (∀ t, run n s = .returned true t ↔ ∃ k, k ≤ n ∧ Host.Core.run core k s = .next t ∧ t.status = .halted)

/-- A `Run` that exhausts its budget leaves the machine running, and a second `Run` continues it: the two together are one
`Run` of the sum (R132). -/
def Obligations.RunContinuesAfterBudget : Prop :=
  ∀ (a b : Nat) (s t : State), run a s = .returned false t → t.status = .running ∧ run (a + b) s = run b t

/-- A fault ends `Run` at once with no boolean: the steps before it stand and the faulting step's state is what the host
finds (R136). That the fault leaves a state at all is decision D10 (log 4). -/
def Obligations.RunEndsAtFault : Prop :=
  ∀ (n : Nat) (s t : State) (r : FaultRecord), run n s = .raised r t ↔
    ∃ k u, k < n ∧ Host.Core.run core k s = .next u ∧ u.status = .running ∧ step u = .next t ∧ t.status = .faulted r

/-- `Run` on a halted machine takes no step and returns true; on a faulted one it is refused (R134, decision D13). -/
def Obligations.RunOnStoppedMachine : Prop :=
  (∀ (n : Nat) (s : State), s.status = .halted → run n s = .returned true s) ∧
  (∀ (n : Nat) (s : State) (r : FaultRecord), s.status = .faulted r → run n s = .refused .stepWhenFaulted)

/-! ### The assembler -/

/-- The worked examples of R98, over every source that is empty or all comments and white space (R96), and the image an
assembled program becomes. What counts as a line and as white space is decision D18 (R97, log 13). -/
def Obligations.AssemblerWorkedExamples : Prop :=
  assemble ['2', 'A', ' ', '0', '1', ' ', '#', ' ', 'c', 'o', 'm', 'm', 'e', 'n', 't', '\n', '0', '0'] =
    .ok [0x2A, 0x01, 0x00] ∧
  assemble [] = .ok [] ∧
  (∀ text, (∀ line ∈ splitLines text, ∀ c ∈ stripComment line, isBlank c = true) → assemble text = .ok []) ∧
  (∀ (d : Dst4) (text : List Char) (bytes : List Byte), assemble text = .ok bytes → bytes.length ≤ addressSpace →
    ∃ s, construct d bytes = .next s ∧ s.cfg.memSize = bytes.length ∧ ∀ i, s.peek i = bytes[i]?)

/-- Bytes come out in document order, and a malformed token anywhere means no bytes at all (R95, R97): a token is well formed
exactly when it is two hexadecimal digits; a text assembles to the bytes of its tokens when all are well formed, and not
otherwise; the first token that is malformed faults the whole text; joining two texts joins their bytes or faults as they do.
What tokens and digits are is decision D18, that the fault names the token the model's choice (log 13). -/
def Obligations.AssemblerDocumentOrder : Prop :=
  (∀ tok : List Char, tokenByte tok ≠ none ↔ tok.length = 2 ∧ ∀ c ∈ tok,
    c ∈ ['0', '1', '2', '3', '4', '5', '6', '7', '8', '9', 'a', 'b', 'c', 'd', 'e', 'f', 'A', 'B', 'C', 'D', 'E', 'F']) ∧
  (∀ (text : List Char) (bytes : List Byte), assemble text = .ok bytes ↔ (textTokens text).map tokenByte = bytes.map some) ∧
  (∀ (text tok : List Char) (before later : List (List Char)), textTokens text = before ++ tok :: later →
    (∀ earlier ∈ before, tokenByte earlier ≠ none) → tokenByte tok = none →
    assemble text = .error (.assemblerFormat tok)) ∧
  (∀ (x y : List Char) (bx by' : List Byte), assemble x = .ok bx → assemble y = .ok by' →
    assemble (x ++ '\n' :: y) = .ok (bx ++ by')) ∧
  (∀ (x y : List Char) (r : Fault), assemble x = .error r → assemble (x ++ '\n' :: y) = .error r) ∧
  (∀ (x y : List Char) (bx : List Byte) (r : Fault), assemble x = .ok bx → assemble y = .error r →
    assemble (x ++ '\n' :: y) = .error r)

/-- Every byte sequence can be written: the hex dump of any bytes assembles to those bytes (R95, R97). -/
def Obligations.HexDumpAssemblesBack : Prop :=
  ∀ bytes : List Byte, assemble (hexDump bytes) = .ok bytes
end

