-- ==== Sys2Proof/Laws/Decode.lean ====
section
/-! SUPPORT. The small lemmas of the encoding: byte order, selectors, the fields of an opcode byte, the decoder's shapes. -/

namespace Sys2Proof

/-- Four bytes split from a word and joined again are the word. -/
theorem joinLe_extract (w : Word) :
    joinLe (w.extractLsb' 0 8) (w.extractLsb' 8 8) (w.extractLsb' 16 8) (w.extractLsb' 24 8) = w := by
  apply BitVec.eq_of_getLsbD_eq
  intro i hi
  simp only [joinLe, BitVec.getLsbD_append, BitVec.getLsbD_extractLsb']
  split
  · simp [*]
  · split
    · rename_i h1 h2
      have : 8 + (i - 8) = i := by omega
      simp [h2, this]
    · split
      · rename_i h1 h2 h3
        have : 16 + (i - 8 - 8) = i := by omega
        simp [h3, this]
      · have : 24 + (i - 8 - 8 - 8) = i := by omega
        have h4 : i - 8 - 8 - 8 < 8 := by omega
        simp [h4, this]

/-- Four bytes joined and split again are the bytes. -/
theorem splitLe_joinLe (b0 b1 b2 b3 : Byte) : splitLe (joinLe b0 b1 b2 b3) = [b0, b1, b2, b3] := by
  have part : ∀ (k : Nat) (b : Byte), (∀ i, i < 8 → (joinLe b0 b1 b2 b3).getLsbD (k + i) = b.getLsbD i) →
      (joinLe b0 b1 b2 b3).extractLsb' k 8 = b := fun k b h => by
    apply BitVec.eq_of_getLsbD_eq
    intro i hi
    rw [BitVec.getLsbD_extractLsb', h i hi]
    simp [hi]
  have bit : ∀ i, (joinLe b0 b1 b2 b3).getLsbD i =
      if i < 8 then b0.getLsbD i else if i - 8 < 8 then b1.getLsbD (i - 8)
      else if i - 8 - 8 < 8 then b2.getLsbD (i - 8 - 8) else b3.getLsbD (i - 8 - 8 - 8) := fun i => by
    simp only [joinLe, BitVec.getLsbD_append]
  unfold splitLe
  rw [part 0 b0, part 8 b1, part 16 b2, part 24 b3]
  · intro i hi
    rw [bit, if_neg (by omega), if_neg (by omega), if_neg (by omega)]
    congr 1
    omega
  · intro i hi
    rw [bit, if_neg (by omega), if_neg (by omega), if_pos (by omega)]
    congr 1
    omega
  · intro i hi
    rw [bit, if_neg (by omega), if_pos (by omega)]
    congr 1
    omega
  · intro i hi
    rw [bit, if_pos (by omega)]
    congr 1
    omega

@[simp] theorem splitLe_length (w : Word) : (splitLe w).length = 4 := rfl

@[simp] theorem byteDstOf_sel (dst : ByteDst) : byteDstOf dst.sel = dst := by cases dst <;> rfl

@[simp] theorem intDstOf_sel (dst : IntDst) : intDstOf dst.sel = dst := by cases dst <;> rfl

theorem sel_byteDstOf (sel : Sel) : (byteDstOf sel).sel = sel := by revert sel; decide

theorem sel_intDstOf (sel : Sel) : (intDstOf sel).sel = sel := by revert sel; decide

/-- An opcode byte with the MV mask is the MV opcode of its fields (R81, R85). -/
theorem mvOpcode_fields (op : Byte) (h : op &&& 0xC0 = 0x40) : mvOpcode (byteDstOf (opDst op)) (opSrc op) = op := by
  revert op; decide

/-- An opcode byte with the MV32 mask is the MV32 opcode of its fields (R81, R86). -/
theorem mv32Opcode_fields (op : Byte) (h : op &&& 0xC0 = 0x80) : mv32Opcode (intDstOf (opDst op)) (opSrc op) = op := by
  revert op; decide

/-- The shape of an MV opcode byte is the row of its selectors. -/
theorem opcodeShape_mvOpcode (dst : ByteDst) (src : Sel) : opcodeShape (mvOpcode dst src) = some (mvShape dst.sel src) := by
  have h : ∀ d s : Sel, ((0b01#2 ++ d) ++ s : Byte) &&& 0xC0 = 0x40 ∧ opDst ((0b01#2 ++ d) ++ s) = d ∧
      opSrc ((0b01#2 ++ d) ++ s) = s := by decide
  obtain ⟨h1, h2, h3⟩ := h dst.sel src
  rw [opcodeShape, mvOpcode, if_pos h1, h2, h3]

/-- The shape of an MV32 opcode byte is the row of its selectors. -/
theorem opcodeShape_mv32Opcode (dst : IntDst) (src : Sel) :
    opcodeShape (mv32Opcode dst src) = some (mv32Shape dst.sel src) := by
  have h : ∀ d s : Sel, ((0b10#2 ++ d) ++ s : Byte) &&& 0xC0 ≠ 0x40 ∧ ((0b10#2 ++ d) ++ s : Byte) &&& 0xC0 = 0x80 ∧
      opDst ((0b10#2 ++ d) ++ s) = d ∧ opSrc ((0b10#2 ++ d) ++ s) = s := by decide
  obtain ⟨h1, h2, h3, h4⟩ := h dst.sel src
  rw [opcodeShape, mv32Opcode, if_neg h1, if_pos h2, h3, h4]

/-- The decoder on a nonempty list is the operand reader of its first byte's shape. -/
theorem decode_cons {op : Byte} {shape : Shape} (h : opcodeShape op = some shape) (rest : List Byte) :
    decode (op :: rest) = decodeOperand shape rest := by simp [decode, h]

/-- The decoder on an opcode byte without a shape rejects it by name. -/
theorem decode_cons_none {op : Byte} (h : opcodeShape op = none) (rest : List Byte) :
    decode (op :: rest) = .error (.unknownOpcode op) := by simp [decode, h]

/-- What the operand reader can answer: it takes 0, 1 or 4 bytes. -/
theorem decodeOperand_ok {shape : Shape} {bytes rest : List Byte} {i : Instr}
    (h : decodeOperand shape bytes = .ok (i, rest)) :
    (shape = .bare i ∧ bytes = rest) ∨ (∃ mk b, shape = .imm8 mk ∧ i = mk b ∧ bytes = b :: rest) ∨
      ∃ mk b0 b1 b2 b3, shape = .imm32 mk ∧ i = mk (joinLe b0 b1 b2 b3) ∧ bytes = b0 :: b1 :: b2 :: b3 :: rest := by
  unfold decodeOperand at h
  split at h
  · cases h; exact .inl ⟨rfl, rfl⟩
  · cases h; exact .inr (.inl ⟨_, _, rfl, rfl, rfl⟩)
  · cases h
  · cases h; exact .inr (.inr ⟨_, _, _, _, _, rfl, rfl, rfl⟩)
  · cases h

/-- The opcode byte of a bare shape is the whole encoding. -/
theorem opcodeShape_bare {op : Byte} {i : Instr} (h : opcodeShape op = some (.bare i)) : encode i = [op] := by
  have key : ∀ op : Byte, (match opcodeShape op with
      | some (.bare i) => decide (encode i = [op])
      | _ => true) = true := by decide +kernel
  have := key op
  rw [h] at this
  exact of_decide_eq_true this

/-- The encoding of a shape with one operand byte. -/
theorem opcodeShape_imm8 {op : Byte} {mk : Byte → Instr} (h : opcodeShape op = some (.imm8 mk)) (b : Byte) :
    encode (mk b) = [op, b] := by
  unfold opcodeShape at h
  split at h
  · rename_i hm
    injection h with h
    unfold mvShape at h
    simp only at h
    split at h
    · rename_i hs
      injection h with h
      subst h
      have h1 := mvOpcode_fields op hm
      rw [hs] at h1
      exact congrArg (fun x => [x, b]) h1
    all_goals (repeat' (split at h)) <;> cases h
  · split at h
    · injection h with h
      unfold mv32Shape at h
      simp only at h
      repeat' (split at h)
      all_goals cases h
    · unfold fixedShape at h
      repeat' (split at h)
      all_goals cases h
      rename_i hh
      subst hh
      rfl

/-- The encoding of a shape with four operand bytes. -/
theorem opcodeShape_imm32 {op : Byte} {mk : Word → Instr} (h : opcodeShape op = some (.imm32 mk)) (w : Word) :
    encode (mk w) = op :: splitLe w := by
  unfold opcodeShape at h
  split at h
  · injection h with h
    unfold mvShape at h
    simp only at h
    repeat' (split at h)
    all_goals cases h
  · split at h
    · rename_i hm
      injection h with h
      unfold mv32Shape at h
      simp only at h
      split at h
      · rename_i hs
        injection h with h
        subst h
        have h1 := mv32Opcode_fields op hm
        rw [hs] at h1
        exact congrArg (fun x => x :: splitLe w) h1
      all_goals (repeat' (split at h)) <;> cases h
    · unfold fixedShape at h
      repeat' (split at h)
      all_goals cases h
      all_goals (rename_i hh; subst hh; rfl)

/-- An opcode byte without a shape is one of the illegal ones (R90). -/
theorem opcodeShape_eq_none (op : Byte) : opcodeShape op = none ↔ illegalOpcode op = true := by
  have key : ∀ op : Byte, (opcodeShape op).isNone = illegalOpcode op := by decide +kernel
  rw [← key op]
  simp

end Sys2Proof
end

