-- ==== Sys2Proof/Laws/Memory.lean ====
section
/-! SUPPORT. The laws of memory: read after write, canonical form kept by every operation, equal reads are equal memories. -/

namespace Sys2Proof.Machine

open Sys2Proof

@[simp] theorem Memory.read_nil (a : Nat) : Memory.read [] a = Memory.unlisted := rfl

theorem Memory.read_cons (x : Host.Cell) (m : Memory) (a : Nat) :
    Memory.read (x :: m) a = if x.1 = a then x.2 else Memory.read m a := rfl

/-- An address without a cell reads as unlisted. -/
theorem Memory.read_of_absent {m : Memory} {a : Nat} (h : ∀ x ∈ m, x.1 ≠ a) : Memory.read m a = Memory.unlisted := by
  induction m with
  | nil => rfl
  | cons x m ih =>
    rw [Memory.read_cons, if_neg (h x (by simp))]
    exact ih fun y hy => h y (by simp [hy])

theorem Memory.read_erase (m : Memory) (k a : Nat) :
    Memory.read (Memory.erase m k) a = if a = k then Memory.unlisted else Memory.read m a := by
  induction m with
  | nil => simp [Memory.erase]
  | cons x m ih =>
    rw [Memory.erase] at ih ⊢
    by_cases hx : x.1 = k
    · rw [List.filter_cons_of_neg (by simpa using hx), ih]
      split
      · rfl
      · rw [Memory.read_cons, if_neg (by omega)]
    · rw [List.filter_cons_of_pos (by simpa using hx), Memory.read_cons, Memory.read_cons, ih]
      split <;> split <;> first | rfl | omega

theorem Memory.read_insert (m : Memory) (k a : Nat) (v : Byte) :
    Memory.read (Memory.insert k v m) a = if a = k then v else Memory.read m a := by
  induction m with
  | nil =>
    rw [Memory.insert, Memory.read_cons]
    split <;> split <;> first | rfl | omega
  | cons x m ih =>
    rw [Memory.insert]
    split
    · rw [Memory.read_cons, Memory.read_cons, ih]
      split <;> split <;> first | rfl | omega
    · rw [Memory.read_cons]
      split <;> split <;> first | rfl | omega

/-- A write changes exactly the byte at its address (R55). -/
theorem Memory.read_write (m : Memory) (k a : Nat) (v : Byte) :
    Memory.read (Memory.write m k v) a = if a = k then v else Memory.read m a := by
  rw [Memory.write]
  split
  · rename_i hv
    rw [Memory.read_erase, hv]
  · rw [Memory.read_insert, Memory.read_erase]
    split <;> rfl

@[simp] theorem Memory.read_write_same (m : Memory) (k : Nat) (v : Byte) :
    Memory.read (Memory.write m k v) k = v := by simp [Memory.read_write]

theorem Memory.read_write_other (m : Memory) {k a : Nat} (v : Byte) (h : a ≠ k) :
    Memory.read (Memory.write m k v) a = Memory.read m a := by simp [Memory.read_write, h]

/-- Every cell after an insertion is the new one or an old one. -/
theorem Memory.mem_insert {m : Memory} {k : Nat} {v : Byte} {x : Host.Cell} (h : x ∈ Memory.insert k v m) :
    x = (k, v) ∨ x ∈ m := by
  induction m with
  | nil => simpa [Memory.insert] using h
  | cons y m ih =>
    rw [Memory.insert] at h
    split at h
    · rcases List.mem_cons.1 h with rfl | h
      · simp
      · rcases ih h with h | h <;> simp [h]
    · simpa using h

theorem Memory.erase_wf {m : Memory} (h : Memory.wf m) (k : Nat) : Memory.wf (Memory.erase m k) :=
  ⟨h.1.filter _, fun x hx => h.2 x (List.mem_filter.1 hx).1⟩

theorem Memory.absent_erase (m : Memory) (k : Nat) : ∀ x ∈ Memory.erase m k, x.1 ≠ k := by
  intro x hx
  simpa using (List.mem_filter.1 hx).2

theorem Memory.insert_wf {m : Memory} {k : Nat} {v : Byte} (h : Memory.wf m) (ha : ∀ x ∈ m, x.1 ≠ k)
    (hv : v ≠ Memory.unlisted) : Memory.wf (Memory.insert k v m) := by
  refine ⟨?_, fun x hx => ?_⟩
  · have hp := h.1
    clear h
    induction m with
    | nil => simp [Memory.insert]
    | cons y m ih =>
      rw [Memory.insert]
      have hy := List.pairwise_cons.1 hp
      split
      · rename_i hlt
        refine List.pairwise_cons.2 ⟨fun x hx => ?_, ih (fun x hx => ha x (by simp [hx])) hy.2⟩
        rcases Memory.mem_insert hx with rfl | hx
        · exact hlt
        · exact hy.1 x hx
      · rename_i hlt
        have hk : k < y.1 := by
          have := ha y (by simp)
          omega
        refine List.pairwise_cons.2 ⟨fun x hx => ?_, hp⟩
        rcases List.mem_cons.1 hx with rfl | hx
        · exact hk
        · exact Nat.lt_trans hk (hy.1 x hx)
  · rcases Memory.mem_insert hx with rfl | hx
    · exact hv
    · exact h.2 x hx

/-- A write keeps the canonical form. -/
theorem Memory.write_wf {m : Memory} (h : Memory.wf m) (k : Nat) (v : Byte) : Memory.wf (Memory.write m k v) := by
  rw [Memory.write]
  split
  · exact Memory.erase_wf h k
  · exact Memory.insert_wf (Memory.erase_wf h k) (Memory.absent_erase m k) (by assumption)

/-- A write makes no cell but the one at its address. -/
theorem Memory.mem_write {m : Memory} {k : Nat} {v : Byte} {x : Host.Cell} (h : x ∈ Memory.write m k v) :
    x.1 = k ∨ x ∈ m := by
  rw [Memory.write] at h
  split at h
  · exact .inr (List.mem_filter.1 h).1
  · rcases Memory.mem_insert h with rfl | h
    · exact .inl rfl
    · exact .inr (List.mem_filter.1 h).1

theorem Memory.writeBytes_wf {m : Memory} (h : Memory.wf m) (a : Nat) (bs : List Byte) :
    Memory.wf (Memory.writeBytes m a bs) := by
  induction bs generalizing m a with
  | nil => exact h
  | cons b bs ih => exact ih (Memory.write_wf h a b) (a + 1)

/-- A cell of an image lies inside the image. -/
theorem Memory.mem_ofBytes {a : Nat} {bs : List Byte} {x : Host.Cell} (h : x ∈ Memory.ofBytes a bs) :
    a ≤ x.1 ∧ x.1 < a + bs.length ∧ x.2 ≠ Memory.unlisted := by
  induction bs generalizing a with
  | nil => simp [Memory.ofBytes] at h
  | cons b bs ih =>
    rw [Memory.ofBytes] at h
    rw [List.length_cons]
    split at h
    · obtain ⟨h1, h2, h3⟩ := ih h
      exact ⟨by omega, by omega, h3⟩
    · rename_i hb
      rcases List.mem_cons.1 h with rfl | h
      · exact ⟨Nat.le_refl _, by simp, hb⟩
      · obtain ⟨h1, h2, h3⟩ := ih h
        exact ⟨by omega, by omega, h3⟩

theorem Memory.ofBytes_wf (a : Nat) (bs : List Byte) : Memory.wf (Memory.ofBytes a bs) := by
  refine ⟨?_, fun x hx => (Memory.mem_ofBytes hx).2.2⟩
  induction bs generalizing a with
  | nil => simp [Memory.ofBytes]
  | cons b bs ih =>
    rw [Memory.ofBytes]
    split
    · exact ih _
    · exact List.pairwise_cons.2 ⟨fun x hx => (Memory.mem_ofBytes hx).1, ih _⟩

/-- Reading an image inside its bytes answers the image's byte. -/
theorem Memory.read_ofBytes (a i : Nat) (bs : List Byte) :
    Memory.read (Memory.ofBytes a bs) (a + i) = bs[i]?.getD Memory.unlisted := by
  induction bs generalizing a i with
  | nil => rfl
  | cons b bs ih =>
    rw [Memory.ofBytes]
    cases i with
    | zero =>
      split
      · rename_i hb
        rw [Memory.read_of_absent fun x hx => by have := (Memory.mem_ofBytes hx).1; omega]
        simp [hb]
      · simp [Memory.read_cons]
    | succ i =>
      have h := ih (a + 1) i
      rw [Nat.add_assoc, Nat.add_comm 1 i] at h
      split
      · simpa using h
      · rw [Memory.read_cons, if_neg (by simp)]
        simpa using h

/-- In canonical form, equal reads are equal memories. -/
theorem Memory.eq_of_read_eq {m m' : Memory} (h : Memory.wf m) (h' : Memory.wf m')
    (hr : ∀ a, Memory.read m a = Memory.read m' a) : m = m' := by
  have below : ∀ {n : Memory} {y : Host.Cell} {a : Nat}, (∀ z ∈ n, y.1 < z.1) → a ≤ y.1 →
      Memory.read n a = Memory.unlisted := fun hn ha =>
    Memory.read_of_absent fun z hz => by have := hn z hz; omega
  induction m generalizing m' with
  | nil =>
    cases m' with
    | nil => rfl
    | cons y m' =>
      have := hr y.1
      rw [Memory.read_cons, if_pos rfl] at this
      exact absurd this.symm (h'.2 y (by simp))
  | cons x m ih =>
    cases m' with
    | nil =>
      have := hr x.1
      rw [Memory.read_cons, if_pos rfl] at this
      exact absurd this (h.2 x (by simp))
    | cons y m' =>
      have hx := List.pairwise_cons.1 h.1
      have hy := List.pairwise_cons.1 h'.1
      have hxv := h.2 x (by simp)
      have hyv := h'.2 y (by simp)
      have e1 := hr x.1
      have e2 := hr y.1
      rw [Memory.read_cons, Memory.read_cons, if_pos rfl] at e1 e2
      have hk : x.1 = y.1 := by
        rcases Nat.lt_trichotomy x.1 y.1 with hlt | heq | hlt
        · rw [if_neg (by omega), below hy.1 (by omega)] at e1
          exact absurd e1 hxv
        · exact heq
        · rw [if_neg (by omega), below hx.1 (by omega)] at e2
          exact absurd e2.symm hyv
      have hv : x.2 = y.2 := by rw [if_pos hk.symm] at e1; exact e1
      have hxy : x = y := Prod.ext hk hv
      subst hxy
      congr 1
      refine ih ⟨hx.2, fun z hz => h.2 z (by simp [hz])⟩ ⟨hy.2, fun z hz => h'.2 z (by simp [hz])⟩ fun a => ?_
      have := hr a
      rw [Memory.read_cons, Memory.read_cons] at this
      by_cases ha : x.1 = a
      · rw [below hx.1 (by omega), below hy.1 (by omega)]
      · rwa [if_neg ha, if_neg ha] at this

/-- Writing back the byte that is there changes nothing. -/
theorem Memory.write_read_self {m : Memory} (h : Memory.wf m) (k : Nat) :
    Memory.write m k (Memory.read m k) = m :=
  Memory.eq_of_read_eq (Memory.write_wf h k _) h fun a => by
    rw [Memory.read_write]
    split <;> simp_all

end Sys2Proof.Machine
end

