-- ==== Sys2Proof/Laws/State.lean ====
section
/-! SUPPORT. What each named update of the state does to each field, true by rfl: later proofs never unfold an update. -/

namespace Sys2Proof.Machine

open Sys2Proof

@[simp] theorem State.advance_regA (s : State) (n : Nat) : (s.advance n).regA = s.regA := rfl
@[simp] theorem State.advance_regB (s : State) (n : Nat) : (s.advance n).regB = s.regB := rfl
@[simp] theorem State.advance_regC (s : State) (n : Nat) : (s.advance n).regC = s.regC := rfl
@[simp] theorem State.advance_regD (s : State) (n : Nat) : (s.advance n).regD = s.regD := rfl
@[simp] theorem State.advance_regE (s : State) (n : Nat) : (s.advance n).regE = s.regE := rfl
@[simp] theorem State.advance_regF (s : State) (n : Nat) : (s.advance n).regF = s.regF := rfl
@[simp] theorem State.advance_la (s : State) (n : Nat) : (s.advance n).la = s.la := rfl
@[simp] theorem State.advance_lb (s : State) (n : Nat) : (s.advance n).lb = s.lb := rfl
@[simp] theorem State.advance_lc (s : State) (n : Nat) : (s.advance n).lc = s.lc := rfl
@[simp] theorem State.advance_ld (s : State) (n : Nat) : (s.advance n).ld = s.ld := rfl
@[simp] theorem State.advance_ptr (s : State) (n : Nat) : (s.advance n).ptr = s.ptr := rfl
@[simp] theorem State.advance_pc (s : State) (n : Nat) : (s.advance n).pc = s.pc + BitVec.ofNat 32 n := rfl
@[simp] theorem State.advance_status (s : State) (n : Nat) : (s.advance n).status = s.status := rfl
@[simp] theorem State.advance_mem (s : State) (n : Nat) : (s.advance n).mem = s.mem := rfl
@[simp] theorem State.advance_out (s : State) (n : Nat) : (s.advance n).out = s.out := rfl
@[simp] theorem State.advance_cfg (s : State) (n : Nat) : (s.advance n).cfg = s.cfg := rfl

@[simp] theorem State.raise_regA (s : State) (c : Cause) : (s.raise c).regA = s.regA := rfl
@[simp] theorem State.raise_regB (s : State) (c : Cause) : (s.raise c).regB = s.regB := rfl
@[simp] theorem State.raise_regC (s : State) (c : Cause) : (s.raise c).regC = s.regC := rfl
@[simp] theorem State.raise_regD (s : State) (c : Cause) : (s.raise c).regD = s.regD := rfl
@[simp] theorem State.raise_regE (s : State) (c : Cause) : (s.raise c).regE = s.regE := rfl
@[simp] theorem State.raise_regF (s : State) (c : Cause) : (s.raise c).regF = s.regF := rfl
@[simp] theorem State.raise_la (s : State) (c : Cause) : (s.raise c).la = s.la := rfl
@[simp] theorem State.raise_lb (s : State) (c : Cause) : (s.raise c).lb = s.lb := rfl
@[simp] theorem State.raise_lc (s : State) (c : Cause) : (s.raise c).lc = s.lc := rfl
@[simp] theorem State.raise_ld (s : State) (c : Cause) : (s.raise c).ld = s.ld := rfl
@[simp] theorem State.raise_ptr (s : State) (c : Cause) : (s.raise c).ptr = s.ptr := rfl
@[simp] theorem State.raise_pc (s : State) (c : Cause) : (s.raise c).pc = s.pc := rfl
@[simp] theorem State.raise_status (s : State) (c : Cause) : (s.raise c).status = .faulted { cause := c, pc0 := s.pc } := rfl
@[simp] theorem State.raise_mem (s : State) (c : Cause) : (s.raise c).mem = s.mem := rfl
@[simp] theorem State.raise_out (s : State) (c : Cause) : (s.raise c).out = s.out := rfl
@[simp] theorem State.raise_cfg (s : State) (c : Cause) : (s.raise c).cfg = s.cfg := rfl

@[simp] theorem State.outAppend_regA (s : State) (b : Byte) : (s.outAppend b).regA = s.regA := rfl
@[simp] theorem State.outAppend_regB (s : State) (b : Byte) : (s.outAppend b).regB = s.regB := rfl
@[simp] theorem State.outAppend_regC (s : State) (b : Byte) : (s.outAppend b).regC = s.regC := rfl
@[simp] theorem State.outAppend_regD (s : State) (b : Byte) : (s.outAppend b).regD = s.regD := rfl
@[simp] theorem State.outAppend_regE (s : State) (b : Byte) : (s.outAppend b).regE = s.regE := rfl
@[simp] theorem State.outAppend_regF (s : State) (b : Byte) : (s.outAppend b).regF = s.regF := rfl
@[simp] theorem State.outAppend_la (s : State) (b : Byte) : (s.outAppend b).la = s.la := rfl
@[simp] theorem State.outAppend_lb (s : State) (b : Byte) : (s.outAppend b).lb = s.lb := rfl
@[simp] theorem State.outAppend_lc (s : State) (b : Byte) : (s.outAppend b).lc = s.lc := rfl
@[simp] theorem State.outAppend_ld (s : State) (b : Byte) : (s.outAppend b).ld = s.ld := rfl
@[simp] theorem State.outAppend_ptr (s : State) (b : Byte) : (s.outAppend b).ptr = s.ptr := rfl
@[simp] theorem State.outAppend_pc (s : State) (b : Byte) : (s.outAppend b).pc = s.pc := rfl
@[simp] theorem State.outAppend_status (s : State) (b : Byte) : (s.outAppend b).status = s.status := rfl
@[simp] theorem State.outAppend_mem (s : State) (b : Byte) : (s.outAppend b).mem = s.mem := rfl
@[simp] theorem State.outAppend_out (s : State) (b : Byte) : (s.outAppend b).out = s.out ++ [b] := rfl
@[simp] theorem State.outAppend_cfg (s : State) (b : Byte) : (s.outAppend b).cfg = s.cfg := rfl

@[simp] theorem State.withCode_regA (s : State) (addr : Nat) (bytes : List Byte) : (s.withCode addr bytes).regA = s.regA := rfl
@[simp] theorem State.withCode_regB (s : State) (addr : Nat) (bytes : List Byte) : (s.withCode addr bytes).regB = s.regB := rfl
@[simp] theorem State.withCode_regC (s : State) (addr : Nat) (bytes : List Byte) : (s.withCode addr bytes).regC = s.regC := rfl
@[simp] theorem State.withCode_regD (s : State) (addr : Nat) (bytes : List Byte) : (s.withCode addr bytes).regD = s.regD := rfl
@[simp] theorem State.withCode_regE (s : State) (addr : Nat) (bytes : List Byte) : (s.withCode addr bytes).regE = s.regE := rfl
@[simp] theorem State.withCode_regF (s : State) (addr : Nat) (bytes : List Byte) : (s.withCode addr bytes).regF = s.regF := rfl
@[simp] theorem State.withCode_la (s : State) (addr : Nat) (bytes : List Byte) : (s.withCode addr bytes).la = s.la := rfl
@[simp] theorem State.withCode_lb (s : State) (addr : Nat) (bytes : List Byte) : (s.withCode addr bytes).lb = s.lb := rfl
@[simp] theorem State.withCode_lc (s : State) (addr : Nat) (bytes : List Byte) : (s.withCode addr bytes).lc = s.lc := rfl
@[simp] theorem State.withCode_ld (s : State) (addr : Nat) (bytes : List Byte) : (s.withCode addr bytes).ld = s.ld := rfl
@[simp] theorem State.withCode_ptr (s : State) (addr : Nat) (bytes : List Byte) : (s.withCode addr bytes).ptr = s.ptr := rfl
@[simp] theorem State.withCode_pc (s : State) (addr : Nat) (bytes : List Byte) : (s.withCode addr bytes).pc = s.pc := rfl
@[simp] theorem State.withCode_status (s : State) (addr : Nat) (bytes : List Byte) : (s.withCode addr bytes).status = s.status := rfl
@[simp] theorem State.withCode_mem (s : State) (addr : Nat) (bytes : List Byte) : (s.withCode addr bytes).mem = Memory.writeBytes s.mem addr bytes := rfl
@[simp] theorem State.withCode_out (s : State) (addr : Nat) (bytes : List Byte) : (s.withCode addr bytes).out = s.out := rfl
@[simp] theorem State.withCode_cfg (s : State) (addr : Nat) (bytes : List Byte) : (s.withCode addr bytes).cfg = { s.cfg with memSize := max s.cfg.memSize (addr + bytes.length) } := rfl

/-! Destination selector 4 writes `Lc` or `Ld`, as `MV32_DST4` says, and nothing else. -/

@[simp] theorem State.setL4_regA (s : State) (v : Word) : (s.setL4 v).regA = s.regA := by
  unfold State.setL4; split <;> rfl
@[simp] theorem State.setL4_regB (s : State) (v : Word) : (s.setL4 v).regB = s.regB := by
  unfold State.setL4; split <;> rfl
@[simp] theorem State.setL4_regC (s : State) (v : Word) : (s.setL4 v).regC = s.regC := by
  unfold State.setL4; split <;> rfl
@[simp] theorem State.setL4_regD (s : State) (v : Word) : (s.setL4 v).regD = s.regD := by
  unfold State.setL4; split <;> rfl
@[simp] theorem State.setL4_regE (s : State) (v : Word) : (s.setL4 v).regE = s.regE := by
  unfold State.setL4; split <;> rfl
@[simp] theorem State.setL4_regF (s : State) (v : Word) : (s.setL4 v).regF = s.regF := by
  unfold State.setL4; split <;> rfl
@[simp] theorem State.setL4_la (s : State) (v : Word) : (s.setL4 v).la = s.la := by
  unfold State.setL4; split <;> rfl
@[simp] theorem State.setL4_lb (s : State) (v : Word) : (s.setL4 v).lb = s.lb := by
  unfold State.setL4; split <;> rfl
@[simp] theorem State.setL4_ptr (s : State) (v : Word) : (s.setL4 v).ptr = s.ptr := by
  unfold State.setL4; split <;> rfl
@[simp] theorem State.setL4_pc (s : State) (v : Word) : (s.setL4 v).pc = s.pc := by
  unfold State.setL4; split <;> rfl
@[simp] theorem State.setL4_status (s : State) (v : Word) : (s.setL4 v).status = s.status := by
  unfold State.setL4; split <;> rfl
@[simp] theorem State.setL4_mem (s : State) (v : Word) : (s.setL4 v).mem = s.mem := by
  unfold State.setL4; split <;> rfl
@[simp] theorem State.setL4_out (s : State) (v : Word) : (s.setL4 v).out = s.out := by
  unfold State.setL4; split <;> rfl
@[simp] theorem State.setL4_cfg (s : State) (v : Word) : (s.setL4 v).cfg = s.cfg := by
  unfold State.setL4; split <;> rfl

theorem State.setL4_lc (s : State) (v : Word) : (s.setL4 v).lc = if s.cfg.dst4 = .lc then v else s.lc := by
  unfold State.setL4; split <;> rename_i h <;> simp [h]

theorem State.setL4_ld (s : State) (v : Word) : (s.setL4 v).ld = if s.cfg.dst4 = .lc then s.ld else v := by
  unfold State.setL4; split <;> rename_i h <;> simp [h]

/-- The memory read does not look at the fields a step's fetch and a fault change. -/
@[simp] theorem State.peek_advance (s : State) (n a : Nat) : (s.advance n).peek a = s.peek a := rfl

@[simp] theorem State.peek_raise (s : State) (c : Cause) (a : Nat) : (s.raise c).peek a = s.peek a := rfl

@[simp] theorem State.effectiveAddr_advance (s : State) (n : Nat) : (s.advance n).effectiveAddr = s.effectiveAddr := rfl

end Sys2Proof.Machine
end

