-- ==== Sys2Proof/Laws/Ops.lean ====
section
/-! SUPPORT. For each shared operation, one lemma that says everything it can do. -/

namespace Sys2Proof.Machine

open Sys2Proof

/-- A valid address has a byte (R52). -/
theorem State.peek_of_lt {s : State} {addr : Nat} (h : addr < s.cfg.memSize) :
    s.peek addr = some (Memory.read s.mem addr) := if_pos h

theorem State.peek_eq_some {s : State} {addr : Nat} {b : Byte} :
    s.peek addr = some b ↔ addr < s.cfg.memSize ∧ Memory.read s.mem addr = b := by
  unfold State.peek
  split <;> simp [*]

theorem State.peek_eq_none {s : State} {addr : Nat} : s.peek addr = none ↔ s.cfg.memSize ≤ addr := by
  unfold State.peek
  split <;> simp <;> omega

/-- `MemRead(addr, 1)` answers the byte there or the bounds fault of the address (R54). -/
theorem memRead_some {s : State} {addr : Nat} {b : Byte} (h : s.peek addr = some b) : memRead s addr = .ok b := by
  simp [memRead, h]

theorem memRead_none {s : State} {addr : Nat} (h : s.peek addr = none) : memRead s addr = .error (.bounds addr) := by
  simp [memRead, h]

/-- `MemRead(addr, 4)` of four valid bytes is their little-endian join (R53, R54). -/
theorem memRead4_some {s : State} {addr : Nat} {b0 b1 b2 b3 : Byte} (h0 : s.peek addr = some b0)
    (h1 : s.peek (addr + 1) = some b1) (h2 : s.peek (addr + 2) = some b2) (h3 : s.peek (addr + 3) = some b3) :
    memRead4 s addr = .ok (joinLe b0 b1 b2 b3) := by
  simp only [memRead4, memRead_some h0, memRead_some h1, memRead_some h2, memRead_some h3]
  rfl

/-- `MemWrite(addr, 1, v)` changes one byte of memory or raises the bounds fault of the address (R55). -/
theorem memWrite_ok {s : State} {addr : Nat} (v : Byte) (h : addr < s.cfg.memSize) :
    memWrite s addr v = .ok { s with mem := Memory.write s.mem addr v } := if_pos h

theorem memWrite_error {s : State} {addr : Nat} (v : Byte) (h : s.cfg.memSize ≤ addr) :
    memWrite s addr v = .error (.bounds addr) := if_neg (by omega)

@[simp] theorem complete_ok (s t : State) : complete s (.ok t) = .next t := rfl

@[simp] theorem complete_error (s : State) (c : Cause) : complete s (.error c) = .next (s.raise c) := rfl

/-- Everything an MV can do once its source is resolved (R160, R162). -/
theorem moveByte_cases {len : Nat} {dst : ByteDst} {v : Byte} {s t : State} (h : moveByte len dst v s = .next t) :
    (dst = .immediate ∧ t = s.raise (.addressing .byteWrite 0)) ∨
    (dst = .a ∧ t = { s.advance len with regA := v }) ∨
    (dst = .b ∧ t = { s.advance len with regB := v }) ∨
    (dst = .c ∧ t = { s.advance len with regC := v }) ∨
    (dst = .d ∧ t = { s.advance len with regD := v }) ∨
    (dst = .e ∧ t = { s.advance len with regE := v }) ∨
    (dst = .f ∧ t = { s.advance len with regF := v }) ∨
    (dst = .indirect ∧ s.effectiveAddr < s.cfg.memSize ∧
      t = { s.advance len with mem := Memory.write s.mem s.effectiveAddr v }) ∨
    (dst = .indirect ∧ s.cfg.memSize ≤ s.effectiveAddr ∧ t = s.raise (.bounds s.effectiveAddr)) := by
  cases dst <;> try (injection h with h; simp [← h])
  by_cases hb : s.effectiveAddr < s.cfg.memSize
  · rw [moveByte, writeByte, State.effectiveAddr_advance, memWrite_ok v (by simpa using hb)] at h
    injection h with h
    simp [← h, hb]
  · rw [moveByte, writeByte, State.effectiveAddr_advance, memWrite_error v (by simpa using hb)] at h
    injection h with h
    simp [← h, hb]
    omega

/-- Everything an MV32 can do once its source is resolved (R180, R182). -/
theorem moveInt_cases {len : Nat} {dst : IntDst} {v : Word} {s t : State} (h : moveInt len dst v s = .next t) :
    (dst = .immediate ∧ t = s.raise (.addressing .intWrite 0)) ∨
    (dst = .la ∧ t = { s.advance len with la := v }) ∨
    (dst = .lb ∧ t = { s.advance len with lb := v }) ∨
    (dst = .lc ∧ t = { s.advance len with lc := v }) ∨
    (dst = .l4 ∧ s.cfg.dst4 = .lc ∧ t = { s.advance len with lc := v }) ∨
    (dst = .l4 ∧ s.cfg.dst4 = .ld ∧ t = { s.advance len with ld := v }) ∨
    (dst = .ptr ∧ t = { s.advance len with ptr := v }) ∨
    (dst = .pc ∧ t = { s.advance len with pc := v }) ∨
    (dst = .indirect ∧ t = s.raise (.addressing .intWrite 7)) := by
  cases dst <;> try (injection h with h; simp [← h]; done)
  injection h with h
  subst h
  unfold State.setL4
  split <;> rename_i hd <;> rw [State.advance_cfg] at hd <;> simp [hd]

/-- Everything the load form of MV can do: the fault of its read, or the rest of the move on the byte read (R161). -/
theorem execMvInd_cases {dst : ByteDst} {s t : State} (h : execMvInd dst s = .next t) :
    (s.cfg.memSize ≤ s.effectiveAddr ∧ t = s.raise (.bounds s.effectiveAddr)) ∨
      (s.effectiveAddr < s.cfg.memSize ∧ moveByte 1 dst (Memory.read s.mem s.effectiveAddr) s = .next t) := by
  by_cases hb : s.effectiveAddr < s.cfg.memSize
  · rw [execMvInd, readIndirect, memRead_some (State.peek_of_lt hb)] at h
    exact .inr ⟨hb, h⟩
  · rw [execMvInd, readIndirect, memRead_none (State.peek_eq_none.2 (by omega))] at h
    injection h with h
    exact .inl ⟨by omega, h.symm⟩

end Sys2Proof.Machine
end

