-- ==== Sys2Proof/Laws/HostPort.lean ====
section
/-! SUPPORT. The host's transactions, one lemma per case: the step request, the run by status and budget. -/

namespace Sys2Proof.Machine

open Sys2Proof

/-- A step that raises delivers the fault in place of its result (R133, R239). -/
theorem stepRequest_raised {s t : State} {r : FaultRecord} (h : step s = .next t) (hr : t.status = .faulted r) :
    stepRequest s = .raised r t := by
  simp only [stepRequest, h, hr]

/-- A step that does not raise returns (R133). -/
theorem stepRequest_returned {s t : State} (h : step s = .next t) (hr : ∀ r, t.status ≠ .faulted r) :
    stepRequest s = .returned () t := by
  cases ht : t.status with
  | faulted r => exact absurd ht (hr r)
  | running => simp only [stepRequest, h, ht]
  | halted => simp only [stepRequest, h, ht]

/-- A run of a halted machine is over (R130, R134). -/
theorem run_of_halted {n : Nat} {s : State} (h : s.status = .halted) : run n s = .returned true s := by
  rw [run.eq_def]
  simp [h]

/-- A run of a faulted machine is refused (decision D13). -/
theorem run_of_faulted {n : Nat} {s : State} {r : FaultRecord} (h : s.status = .faulted r) :
    run n s = .refused .stepWhenFaulted := by
  rw [run.eq_def]
  simp [h]

/-- A running machine without budget returns false (R130). -/
theorem run_zero {s : State} (h : s.status = .running) : run 0 s = .returned false s := by
  rw [run]
  simp [h]

/-- A running machine with budget takes one step and goes on with one less (R130). -/
theorem run_succ_returned {n : Nat} {s t : State} (h : s.status = .running) (hq : stepRequest s = .returned () t) :
    run (n + 1) s = run n t := by
  rw [run]
  simp [h, hq]

/-- A fault ends the run with the faulting step's state (R136). -/
theorem run_succ_raised {n : Nat} {s t : State} {r : FaultRecord} (h : s.status = .running)
    (hq : stepRequest s = .raised r t) : run (n + 1) s = .raised r t := by
  rw [run]
  simp [h, hq]

/-- A construction that succeeds is the image in a machine at its reset values (R34, R270). -/
theorem construct_next {dst4 : Dst4} {image : List Byte} {s : State} (h : construct dst4 image = .next s) :
    image.length ≤ addressSpace ∧
      s = { State.reset with mem := Memory.ofBytes 0 image, cfg := { memSize := image.length, dst4 := dst4 } } := by
  unfold construct at h
  split at h
  · rename_i hl
    injection h with h
    exact ⟨hl, h.symm⟩
  · cases h

end Sys2Proof.Machine
end

