-- ==== Sys2Proof/Laws/PerInstr.lean ====
section
/-! SUPPORT. A statement for all instructions, made per instruction: the first byte of its encoding alone decides its length,
which is the one R89 gives. -/

namespace Sys2Proof.Laws.LengthByOpcode

open Sys2Proof

/-- The encoding is an opcode byte and a tail, and `Length` of that byte is the number of bytes (R80, R89). -/
def Statement (i : Instr) : Prop :=
  ∃ op tail, encode i = op :: tail ∧ opcodeLength op = some (encode i).length

theorem halt : Statement .halt := ⟨_, _, rfl, rfl⟩

theorem out : Statement .out := ⟨_, _, rfl, rfl⟩

theorem jez (addr32 : Word) : Statement (.jez addr32) := ⟨_, _, rfl, rfl⟩

theorem jnz (addr32 : Word) : Statement (.jnz addr32) := ⟨_, _, rfl, rfl⟩

theorem cmp : Statement .cmp := ⟨_, _, rfl, rfl⟩

theorem add : Statement .add := ⟨_, _, rfl, rfl⟩

theorem sub : Statement .sub := ⟨_, _, rfl, rfl⟩

theorem xor : Statement .xor := ⟨_, _, rfl, rfl⟩

theorem aptr (imm8 : Byte) : Statement (.aptr imm8) := ⟨_, _, rfl, rfl⟩

theorem mvImm (dst : ByteDst) (imm8 : Byte) : Statement (.mvImm dst imm8) := by
  cases dst <;> exact ⟨_, _, rfl, rfl⟩

theorem mvA (dst : ByteDst) : Statement (.mvA dst) := by
  cases dst <;> exact ⟨_, _, rfl, rfl⟩

theorem mvB (dst : ByteDst) : Statement (.mvB dst) := by
  cases dst <;> exact ⟨_, _, rfl, rfl⟩

theorem mvC (dst : ByteDst) : Statement (.mvC dst) := by
  cases dst <;> exact ⟨_, _, rfl, rfl⟩

theorem mvD (dst : ByteDst) : Statement (.mvD dst) := by
  cases dst <;> exact ⟨_, _, rfl, rfl⟩

theorem mvE (dst : ByteDst) : Statement (.mvE dst) := by
  cases dst <;> exact ⟨_, _, rfl, rfl⟩

theorem mvF (dst : ByteDst) : Statement (.mvF dst) := by
  cases dst <;> exact ⟨_, _, rfl, rfl⟩

theorem mvInd (dst : ByteDst) : Statement (.mvInd dst) := by
  cases dst <;> exact ⟨_, _, rfl, rfl⟩

theorem mv32Imm (dst : IntDst) (imm32 : Word) : Statement (.mv32Imm dst imm32) := by
  cases dst <;> exact ⟨_, _, rfl, rfl⟩

theorem mv32La (dst : IntDst) : Statement (.mv32La dst) := by
  cases dst <;> exact ⟨_, _, rfl, rfl⟩

theorem mv32Lb (dst : IntDst) : Statement (.mv32Lb dst) := by
  cases dst <;> exact ⟨_, _, rfl, rfl⟩

theorem mv32Lc (dst : IntDst) : Statement (.mv32Lc dst) := by
  cases dst <;> exact ⟨_, _, rfl, rfl⟩

theorem mv32LcAlias (dst : IntDst) : Statement (.mv32LcAlias dst) := by
  cases dst <;> exact ⟨_, _, rfl, rfl⟩

theorem mv32Ptr (dst : IntDst) : Statement (.mv32Ptr dst) := by
  cases dst <;> exact ⟨_, _, rfl, rfl⟩

theorem mv32Pc (dst : IntDst) : Statement (.mv32Pc dst) := by
  cases dst <;> exact ⟨_, _, rfl, rfl⟩

theorem mv32Src7 (dst : IntDst) : Statement (.mv32Src7 dst) := by
  cases dst <;> exact ⟨_, _, rfl, rfl⟩

end Sys2Proof.Laws.LengthByOpcode
end

