-- ==== Sys2Proof/Laws/Step.lean ====
section
/-! SUPPORT. What the fetched bytes are, and once for all what a step can do. -/

namespace Sys2Proof.Machine

open Sys2Proof

@[simp] theorem codeBytes_zero (s : State) (a : Nat) : codeBytes s a 0 = [] := rfl

theorem codeBytes_some {s : State} {a : Nat} {b : Byte} (h : s.peek a = some b) (n : Nat) :
    codeBytes s a (n + 1) = b :: codeBytes s (a + 1) n := by simp [codeBytes, h]

theorem codeBytes_none {s : State} {a : Nat} (h : s.peek a = none) (n : Nat) : codeBytes s a n = [] := by
  cases n <;> simp [codeBytes, h]

/-- Every fetched byte stands in memory at its address. -/
theorem codeBytes_peek {s : State} {a n k : Nat} {b : Byte} (h : (codeBytes s a n)[k]? = some b) :
    s.peek (a + k) = some b := by
  induction n generalizing a k with
  | zero => simp at h
  | succ n ih =>
    cases hp : s.peek a with
    | none => rw [codeBytes_none hp] at h; simp at h
    | some c =>
      rw [codeBytes_some hp] at h
      cases k with
      | zero => simpa [hp] using h
      | succ k =>
        have := ih (a := a + 1) (k := k) (by simpa using h)
        rwa [Nat.add_assoc, Nat.add_comm 1 k] at this

/-- Bytes that stand in memory are fetched first, whatever follows them. -/
theorem codeBytes_prefix {s : State} {bytes : List Byte} {a n : Nat} (hn : bytes.length ≤ n)
    (h : ∀ k b, bytes[k]? = some b → s.peek (a + k) = some b) : ∃ tail, codeBytes s a n = bytes ++ tail := by
  induction bytes generalizing a n with
  | nil => exact ⟨_, rfl⟩
  | cons c bytes ih =>
    cases n with
    | zero => simp at hn
    | succ n =>
      obtain ⟨tail, ht⟩ := ih (a := a + 1) (n := n) (by simpa using hn) fun k b hk => by
        have := h (k + 1) b (by simpa using hk)
        rwa [Nat.add_assoc, Nat.add_comm 1 k]
      exact ⟨tail, by rw [codeBytes_some (a := a) (h 0 c rfl), ht]; rfl⟩

/-- With the byte at `a + k` the first one missing, exactly `k` bytes are fetched. -/
theorem codeBytes_length {s : State} {a k n : Nat} (hk : k ≤ n) (hm : s.peek (a + k) = none)
    (h : ∀ j, j < k → s.peek (a + j) ≠ none) : (codeBytes s a n).length = k := by
  induction k generalizing a n with
  | zero => rw [codeBytes_none (a := a) hm]; rfl
  | succ k ih =>
    cases n with
    | zero => omega
    | succ n =>
      cases hp : s.peek a with
      | none => exact absurd hp (h 0 (by omega))
      | some c =>
        rw [codeBytes_some hp, List.length_cons, ih (a := a + 1) (by omega)]
        · rwa [Nat.add_assoc, Nat.add_comm 1 k]
        · intro j hj
          have := h (j + 1) (by omega)
          rwa [Nat.add_assoc, Nat.add_comm 1 j]

/-- Everything a step that has a next state can be: the execution of the instruction fetched, or a fault of its fetch. -/
theorem step_cases {s t : State} (h : step s = .next t) :
    s.status = .running ∧
      ((∃ i rest, decode (codeBytes s s.pc.toNat 5) = .ok (i, rest) ∧ exec i s = .next t) ∨
        (∃ op, decode (codeBytes s s.pc.toNat 5) = .error (.unknownOpcode op) ∧ t = s.raise (.decode op)) ∨
        ∃ k, decode (codeBytes s s.pc.toNat 5) = .error (.missingByte k) ∧
          t = s.raise (.bounds (s.pc.toNat + k))) := by
  unfold step at h
  split at h
  · rename_i hs
    refine ⟨hs, ?_⟩
    unfold fetch at h
    split at h <;> rename_i hf <;> split at hf <;> cases hf <;> rename_i hd
    · exact .inl ⟨_, _, hd, h⟩
    · injection h with h; exact .inr (.inl ⟨_, hd, h.symm⟩)
    · injection h with h; exact .inr (.inr ⟨_, hd, h.symm⟩)
  · cases h
  · cases h

/-- A running machine whose bytes do not decode takes the fault of its fetch. -/
theorem step_decode_error {s : State} {e : DecodeError} (hs : s.status = .running)
    (h : decode (codeBytes s s.pc.toNat 5) = .error e) :
    step s = .next (s.raise (match e with
      | .unknownOpcode op => .decode op
      | .missingByte k => .bounds (s.pc.toNat + k))) := by
  cases e <;> simp [step, fetch, hs, h]

/-- Why bytes do not decode: no opcode byte, an illegal one, or an operand byte missing after a legal one. -/
theorem decode_error_cases {bytes : List Byte} {e : DecodeError} (h : decode bytes = .error e) :
    (bytes = [] ∧ e = .missingByte 0) ∨
      (∃ op rest, bytes = op :: rest ∧ opcodeShape op = none ∧ e = .unknownOpcode op) ∨
      ∃ op rest shape, bytes = op :: rest ∧ opcodeShape op = some shape ∧ e = .missingByte bytes.length ∧
        ((∃ mk, shape = .imm8 mk ∧ rest.length < 1) ∨ ∃ mk, shape = .imm32 mk ∧ rest.length < 4) := by
  cases bytes with
  | nil => cases h; exact .inl ⟨rfl, rfl⟩
  | cons op rest =>
    cases hs : opcodeShape op with
    | none =>
      rw [decode_cons_none hs] at h
      cases h
      exact .inr (.inl ⟨op, rest, rfl, hs, rfl⟩)
    | some shape =>
      rw [decode_cons hs] at h
      refine .inr (.inr ⟨op, rest, shape, rfl, hs, ?_⟩)
      unfold decodeOperand at h
      split at h
      · cases h
      · cases h
      · cases h; exact ⟨rfl, .inl ⟨_, rfl, by simp⟩⟩
      · cases h
      · rename_i mk hlong
        cases h
        refine ⟨by simp [Nat.add_comm], .inr ⟨mk, rfl, ?_⟩⟩
        match rest, hlong with
        | [], _ => simp
        | [_], _ => simp
        | [_, _], _ => simp
        | [_, _, _], _ => simp
        | b0 :: b1 :: b2 :: b3 :: r, hl => exact absurd rfl (hl b0 b1 b2 b3 r)

end Sys2Proof.Machine
end

