-- ==== Sys2Proof/Tests/Slice0.lean ====
section
/-! SUPPORT. Tests by name: the well-formedness smoke, a word of every row decoded, single steps with the results of
spec/95_test_vectors.md (the vector is named in each comment), and a witness for the hypotheses of every statement. -/

namespace Sys2Proof.Tests

open Sys2Proof Sys2Proof.Machine

/-- A machine just constructed from an image. -/
def load (image : List Byte) : State :=
  { State.reset with mem := Memory.ofBytes 0 image, cfg := { memSize := image.length, dst4 := .lc } }

/-- The image of an instruction at address 0 followed by zero bytes. -/
def padded (bytes : List Byte) (zeros : Nat) : List Byte := bytes ++ List.replicate zeros 0x00

/-- What one step leaves, seen through a few fields; none unless there is a next state. -/
def after {α : Type} (s : State) (view : State → α) : Option α :=
  match step s with
  | .next t => some (view t)
  | .fault _ => none
  | .refused _ => none

/-- The fault one step takes: the cause, `pc0`, and `Pc` as the step leaves it. -/
def faultOf (s : State) : Option (Cause × Word × Word) :=
  match step s with
  | .next t =>
    match t.status with
    | .faulted r => some (r.cause, r.pc0, t.pc)
    | .running | .halted => none
  | .fault _ => none
  | .refused _ => none

/-! ### Well-formedness: what each check refuses -/

/-- R91: `0x41` can never complete. -/
theorem test_wf_mv_selector_zero : (Instr.mvA .immediate).completable = false := by decide

/-- R91: `0x47`. -/
theorem test_wf_mv_load_selector_zero : (Instr.mvInd .immediate).completable = false := by decide

/-- R91: `0x80`. -/
theorem test_wf_mv32_selector_zero : (Instr.mv32Imm .immediate 1).completable = false := by decide

/-- R91: `0xB9`. -/
theorem test_wf_mv32_selector_seven : (Instr.mv32La .indirect).completable = false := by decide

/-- R91: `0x8F`. -/
theorem test_wf_mv32_source_seven : (Instr.mv32Src7 .la).completable = false := by decide

/-- R7: `MEM_SIZE` above 2^32 is not legal. -/
theorem test_wf_config_too_large : Config.wf { memSize := 4294967297, dst4 := .lc } = false := by decide

/-- R7: `MEM_SIZE` of 2^32 is legal. -/
theorem test_wf_config_largest : Config.wf { memSize := 4294967296, dst4 := .ld } = true := by decide

/-- Addresses out of order are not canonical. -/
theorem test_wf_memory_order : ¬ Memory.wf [(5, 0x01), (4, 0x01)] := by decide

/-- A repeated address is not canonical. -/
theorem test_wf_memory_repeat : ¬ Memory.wf [(5, 0x01), (5, 0x02)] := by decide

/-- A cell that holds the unlisted byte is not canonical. -/
theorem test_wf_memory_unlisted : ¬ Memory.wf [(5, 0x00)] := by decide

/-! ### Decoding: a word of every row, its bits written out from R81 to R88 -/

theorem test_decode_halt : decode [0b00000001] = .ok (.halt, []) := by decide

theorem test_decode_out : decode [0b00000010] = .ok (.out, []) := by decide

theorem test_decode_jez : decode [0b00100001, 0x78, 0x56, 0x34, 0x12] = .ok (.jez 0x12345678, []) := by decide

theorem test_decode_jnz : decode [0b00100010, 0x78, 0x56, 0x34, 0x12] = .ok (.jnz 0x12345678, []) := by decide

theorem test_decode_cmp : decode [0b11000001] = .ok (.cmp, []) := by decide

theorem test_decode_add : decode [0b11000010] = .ok (.add, []) := by decide

theorem test_decode_sub : decode [0b11000011] = .ok (.sub, []) := by decide

theorem test_decode_xor : decode [0b11000100] = .ok (.xor, []) := by decide

theorem test_decode_aptr : decode [0b11100001, 0x80] = .ok (.aptr 0x80, []) := by decide

theorem test_decode_mvImm : decode [0b01110000, 0x80] = .ok (.mvImm .f 0x80, []) := by decide

theorem test_decode_mvA : decode [0b01010001] = .ok (.mvA .b, []) := by decide

theorem test_decode_mvB : decode [0b01111010] = .ok (.mvB .indirect, []) := by decide

theorem test_decode_mvC : decode [0b01001011] = .ok (.mvC .a, []) := by decide

theorem test_decode_mvD : decode [0b01101100] = .ok (.mvD .e, []) := by decide

theorem test_decode_mvE : decode [0b01100101] = .ok (.mvE .d, []) := by decide

theorem test_decode_mvF : decode [0b01011110] = .ok (.mvF .c, []) := by decide

theorem test_decode_mvInd : decode [0b01000111] = .ok (.mvInd .immediate, []) := by decide

theorem test_decode_mv32Imm :
    decode [0b10100000, 0xEF, 0xBE, 0xAD, 0xDE] = .ok (.mv32Imm .l4 0xDEADBEEF, []) := by decide

theorem test_decode_mv32La : decode [0b10010001] = .ok (.mv32La .lb, []) := by decide

theorem test_decode_mv32Lb : decode [0b10011010] = .ok (.mv32Lb .lc, []) := by decide

theorem test_decode_mv32Lc : decode [0b10001011] = .ok (.mv32Lc .la, []) := by decide

theorem test_decode_mv32LcAlias : decode [0b10101100] = .ok (.mv32LcAlias .ptr, []) := by decide

theorem test_decode_mv32Ptr : decode [0b10110101] = .ok (.mv32Ptr .pc, []) := by decide

theorem test_decode_mv32Pc : decode [0b10000110] = .ok (.mv32Pc .immediate, []) := by decide

theorem test_decode_mv32Src7 : decode [0b10111111] = .ok (.mv32Src7 .indirect, []) := by decide

/-- R90. -/
theorem test_decode_illegal : decode [0xC5, 0x01] = .error (.unknownOpcode 0xC5) := by decide

/-- The third operand byte of `21 34 12` is missing (V-J6). -/
theorem test_decode_short : decode [0x21, 0x34, 0x12] = .error (.missingByte 3) := by decide

/-- The table's numbering: byte 1 of the instruction is bits 15..8. -/
theorem test_table_word_jez : decodeTableWord 40 0x1234567821 = some (.jez 0x12345678) := by decide

/-- Bits above `nbits` are zero. -/
theorem test_table_word_short : decodeTableWord 8 0x48 = some (.mvImm .a 0x00) := by decide

/-- S5 through `withFetchWord`. -/
theorem test_fetch_word :
    after (State.reset.withFetchWord 16 0x2A48) (fun t => (t.regA, t.pc)) = some (0x2A, 2) := by decide

/-! ### Single steps -/

/-- V-H1. -/
theorem test_halt : after (load [0x01]) (fun t => (t.status, t.pc)) = some (.halted, 1) := by decide

/-- V-H5. -/
theorem test_halted_refuses : step { load [0x01] with status := .halted } = .refused .stepWhenHalted := rfl

/-- V-O1, after an earlier byte. -/
theorem test_out :
    after { load [0x02] with regA := 0x7F, out := [0x01] } (fun t => (t.out, t.pc)) = some ([0x01, 0x7F], 1) := by
  decide

/-- V-J1. -/
theorem test_jez_taken :
    after { load (List.replicate 16 0x00 ++ [0x21, 0x34, 0x12, 0x00, 0x00]) with pc := 0x10 } (·.pc) =
      some 0x1234 := by
  decide

/-- V-J2. -/
theorem test_jez_not_taken :
    after { load (List.replicate 16 0x00 ++ [0x21, 0x34, 0x12, 0x00, 0x00]) with pc := 0x10, regF := 0x01 } (·.pc) =
      some 0x15 := by
  decide

/-- V-J5 with bit 7 alone. -/
theorem test_jnz_all_bits :
    after { load (List.replicate 12 0x00 ++ [0x22, 0x04, 0x00, 0x00, 0x00]) with pc := 0x0C, regF := 0x80 } (·.pc) =
      some 0x04 := by
  decide

/-- V-J4. -/
theorem test_jnz_not_taken :
    after { load (List.replicate 12 0x00 ++ [0x22, 0x04, 0x00, 0x00, 0x00]) with pc := 0x0C } (·.pc) = some 0x11 := by
  decide

/-- V-C1. -/
theorem test_cmp_equal :
    after { load [0xC1] with regA := 0x05, regB := 0x05, regF := 0x77 } (fun t => (t.regF, t.pc)) =
      some (0x00, 1) := by
  decide

/-- V-C4. -/
theorem test_cmp_unequal : after { load [0xC1] with regA := 0x80, regB := 0x7F } (·.regF) = some 0x01 := by decide

/-- V-A1, S4. -/
theorem test_add_wraps : after { load [0xC2] with regA := 0xFF, regB := 0x01 } (·.regA) = some 0x00 := by decide

/-- V-A4. -/
theorem test_add_leaves_f :
    after { load [0xC2] with regA := 0x12, regF := 0x09 } (fun t => (t.regA, t.regF)) = some (0x12, 0x09) := by decide

/-- V-S1, S4. -/
theorem test_sub_wraps : after { load [0xC3] with regB := 0x01 } (·.regA) = some 0xFF := by decide

/-- V-S4. -/
theorem test_sub_order : after { load [0xC3] with regA := 0x10, regB := 0x20 } (·.regA) = some 0xF0 := by decide

/-- V-X3. -/
theorem test_xor : after { load [0xC4] with regA := 0x0F, regB := 0x3C } (·.regA) = some 0x33 := by decide

/-- V-P3. -/
theorem test_aptr_wraps :
    after { load [0xE1, 0x02] with ptr := 0xFFFFFFFF } (fun t => (t.ptr, t.pc)) = some (1, 2) := by decide

/-- V-P4. -/
theorem test_aptr_unsigned : after (load [0xE1, 0xFF]) (·.ptr) = some 0xFF := by decide

/-- V-M1, S5. -/
theorem test_mvImm_register : after (load [0x48, 0x2A]) (fun t => (t.regA, t.pc)) = some (0x2A, 2) := by decide

/-- V-M5. -/
theorem test_mvImm_store :
    after { load (padded [0x78, 0x77] 17) with ptr := 0x10, regC := 0x02 } (·.peek 0x12) = some (some 0x77) := by
  decide

/-- V-M2. -/
theorem test_mvA_register :
    after { load [0x51] with regA := 0x33 } (fun t => (t.regB, t.pc)) = some (0x33, 1) := by decide

/-- V-M4, S6. -/
theorem test_mvA_store :
    after { load (padded [0x79] 18) with ptr := 0x10, regC := 0x02, regA := 0x5A } (·.peek 0x12) =
      some (some 0x5A) := by
  decide

/-- R161, R162: `MV C, B`. -/
theorem test_mvB :
    after { load [0x5A] with regB := 0x44 } (fun t => (t.regC, t.regB)) = some (0x44, 0x44) := by decide

/-- V-M8. -/
theorem test_mvC_store :
    after { load [0x7B, 0x00, 0x00, 0x00] with ptr := 0x01, regC := 0x02 } (·.peek 3) = some (some 0x02) := by decide

/-- R161, R162: `MV E, D`. -/
theorem test_mvD :
    after { load [0x6C] with regD := 0x44 } (fun t => (t.regE, t.regD)) = some (0x44, 0x44) := by decide

/-- R161, R162: `MV D, E`. -/
theorem test_mvE :
    after { load [0x65] with regE := 0x45 } (fun t => (t.regD, t.regE)) = some (0x45, 0x45) := by decide

/-- V-M10. -/
theorem test_mvF : after { load [0x76] with regF := 0x33 } (fun t => (t.regF, t.pc)) = some (0x33, 1) := by decide

/-- V-M6. -/
theorem test_mvInd_old_c :
    after { load ((padded [0x5F] 17) ++ [0x07]) with ptr := 0x10, regC := 0x02 } (fun t => (t.regC, t.pc)) =
      some (0x07, 1) := by
  decide

/-- V-M16. -/
theorem test_mvInd_fault_order :
    faultOf { load [0x47, 0x00, 0x00, 0x00] with ptr := 0x03, regC := 0x01 } = some (.bounds 4, 0, 0) := by decide

/-- V-M13. -/
theorem test_mv_selector_zero :
    faultOf { load [0x41] with regA := 0x05 } = some (.addressing .byteWrite 0, 0, 0) := by decide

/-- V-M18. -/
theorem test_mv_no_wrap :
    faultOf { load [0x79, 0x00, 0x00, 0x00] with ptr := 0xFFFFFFFF, regC := 0x01 } =
      some (.bounds 4294967296, 0, 0) := by
  decide

/-- V-L1. -/
theorem test_mv32Imm_little_endian :
    after (load [0xA8, 0x78, 0x56, 0x34, 0x12]) (fun t => (t.ptr, t.pc)) = some (0x12345678, 5) := by decide

/-- V-L14. -/
theorem test_mv32Imm_fault_order : faultOf (load [0x80, 0x01, 0x02, 0x03]) = some (.bounds 4, 0, 0) := by decide

/-- V-L8a. -/
theorem test_mv32La_dst4_lc : after { load [0xA1] with la := 5 } (fun t => (t.lc, t.ld)) = some (5, 0) := by decide

/-- V-L8b. -/
theorem test_mv32La_dst4_ld :
    after { load [0xA1] with la := 5, cfg := { memSize := 1, dst4 := .ld } } (fun t => (t.lc, t.ld)) =
      some (0, 5) := by
  decide

/-- R181, R182: `MV32 La, Lb`. -/
theorem test_mv32Lb :
    after { load [0x8A] with lb := 0x89ABCDEF } (fun t => (t.la, t.pc)) = some (0x89ABCDEF, 1) := by decide

/-- R181, R182: `MV32 Lb, Lc`. -/
theorem test_mv32Lc : after { load [0x93] with lc := 0x89ABCDEF } (·.lb) = some 0x89ABCDEF := by decide

/-- V-L7. -/
theorem test_mv32LcAlias :
    after { load [0x8C] with lc := 0xAABBCCDD, ld := 0x11111111 } (·.la) = some 0xAABBCCDD := by decide

/-- V-L18. -/
theorem test_mv32Ptr_jump : after { load [0xB5] with ptr := 0x1234 } (·.pc) = some 0x1234 := by decide

/-- V-L3. -/
theorem test_mv32Pc_reads_next :
    after { load (List.replicate 32 0x00 ++ [0x8E]) with pc := 0x20 } (fun t => (t.la, t.pc)) =
      some (0x21, 0x21) := by
  decide

/-- V-L6. -/
theorem test_mv32Pc_to_pc : after { load [0x00, 0x00, 0x00, 0xB6] with pc := 3 } (·.pc) = some 4 := by decide

/-- V-L12. -/
theorem test_mv32Src7_first : faultOf (load [0xBF]) = some (.addressing .intRead 7, 0, 0) := by decide

/-- V-L11. -/
theorem test_mv32_selector_seven :
    faultOf { load [0xB9] with la := 1 } = some (.addressing .intWrite 7, 0, 0) := by decide

/-- V-D7. -/
theorem test_decode_fault :
    faultOf { load [0xC5, 0x01, 0x02, 0x03, 0x04] with regA := 0x01 } = some (.decode 0xC5, 0, 0) := by decide

/-- V-B3. -/
theorem test_fetch_no_wrap :
    faultOf { load [0x01, 0x01] with pc := 0xFFFFFFFF } = some (.bounds 0xFFFFFFFF, 0xFFFFFFFF, 0xFFFFFFFF) := by
  decide

/-- V-J7. -/
theorem test_operand_no_wrap : faultOf (load [0x22, 0x34, 0x12, 0x00]) = some (.bounds 4, 0, 0) := by decide

/-! ### The run loop and the assembler -/

/-- V-H2. -/
theorem test_run_zero_budget : run 0 (load [0x01]) = .returned false (load [0x01]) := rfl

/-- V-H3. -/
theorem test_run_one :
    (match run 1 (load [0x01]) with | .returned halted t => some (halted, t.pc) | _ => none) = some (true, 1) := by
  decide

/-- V-T5. -/
theorem test_assemble_blanks :
    assemble [' ', '\t', '4', '8', ' ', '2', 'A', '\r', '\n', '0', '1'] = .ok [0x48, 0x2A, 0x01] := by decide

/-- V-T4, V-T6. -/
theorem test_assemble_comment : assemble ['2', 'a', '#', 'c'] = .ok [0x2A] := by decide

/-- V-T8. -/
theorem test_assemble_four_digits :
    assemble ['2', 'A', '0', '1'] = .error (.assemblerFormat ['2', 'A', '0', '1']) := by decide

/-- V-T14. -/
theorem test_assemble_late_fault :
    assemble ['4', '8', '\n', 'Z', 'Z'] = .error (.assemblerFormat ['Z', 'Z']) := by decide

/-! ### Witnesses: a concrete state and operands that meet the hypotheses of each statement, clause by clause -/

theorem witness_EncodeAfterDecode : decode [0x48, 0x2A, 0x01] = .ok (.mvImm .a 0x2A, [0x01]) := by decide

theorem witness_IllegalOpcodes_lowest :
    (load [0x00]).status = .running ∧ (load [0x00]).peek 0 = some 0x00 ∧ illegalOpcode 0x00 = true := by decide

theorem witness_IllegalOpcodes_highest :
    (load [0xFF]).status = .running ∧ (load [0xFF]).peek 0 = some 0xFF ∧ illegalOpcode 0xFF = true := by decide

theorem witness_LengthIsFixedByOpcode : decode (0xE1 :: [0x05, 0x01]) = .ok (.aptr 0x05, [0x01]) := by decide

theorem witness_RowsAgreeWithDecodeTable : decode (0x8F :: [0x00]) = .ok (.mv32Src7 .la, [0x00]) := by decide

theorem witness_AlwaysFaultingForms :
    (Instr.mvA .immediate).completable = false ∧ (Instr.mv32Pc .l4).completable = true := by decide

theorem witness_StepRunsDecodedInstruction :
    (load [0x48, 0x2A]).status = .running ∧
    decode (codeBytes (load [0x48, 0x2A]) (load [0x48, 0x2A]).pc.toNat 5) = .ok (.mvImm .a 0x2A, []) := by decide

/-- The bytes of `48 2A` stand at the very end of memory. -/
theorem witness_BytesInMemoryRun :
    (load [0x48, 0x2A]).status = .running ∧
      ∀ (k : Nat) (b : Byte), (encode (.mvImm .a 0x2A))[k]? = some b →
        (load [0x48, 0x2A]).peek ((load [0x48, 0x2A]).pc.toNat + k) = some b := by
  refine ⟨rfl, fun k b h => ?_⟩
  match k with
  | 0 => exact h
  | 1 => exact h
  | k + 2 => cases h

/-- No byte at all. -/
theorem witness_MissingByte_opcode : (load []).status = .running ∧ firstMissing (load []) 0 :=
  ⟨rfl, rfl, fun j h => absurd h (Nat.not_lt_zero j)⟩

/-- The last operand byte of a five-byte instruction is the first missing one. -/
theorem witness_MissingByte_last_operand :
    (load [0x22, 0x34, 0x12, 0x00]).status = .running ∧ firstMissing (load [0x22, 0x34, 0x12, 0x00]) 4 ∧
      ∃ op len, (load [0x22, 0x34, 0x12, 0x00]).peek 0 = some op ∧ opcodeLength op = some len ∧ 4 < len :=
  ⟨rfl, ⟨rfl, by decide⟩, 0x22, 5, by decide⟩

/-- The one operand byte of a two-byte instruction is missing. -/
theorem witness_MissingByte_first_operand :
    firstMissing (load [0x48]) 1 ∧
      ∃ op len, (load [0x48]).peek 0 = some op ∧ opcodeLength op = some len ∧ 1 < len :=
  ⟨⟨rfl, by decide⟩, 0x48, 2, by decide⟩

theorem witness_OnlyRunningMachinesStep :
    (load []).status = .running ∧ { load [] with status := .halted }.status = .halted ∧
    ((load []).raise (.bounds 0)).status = .faulted { cause := .bounds 0, pc0 := 0 } := ⟨rfl, rfl, rfl⟩

/-- A step that halts and one that does not. -/
theorem witness_OnlyHaltHalts :
    (∃ t, step (load [0x01]) = .next t ∧ t.status = .halted) ∧ ∃ t, step (load [0x02]) = .next t ∧ t.status = .running :=
  ⟨⟨_, rfl, rfl⟩, _, rfl, rfl⟩

/-- One unfaulted step for each of the four ways `Pc` can move: advance, taken JEZ, taken JNZ, MV32 to `Pc`. -/
theorem witness_PcAfterStep :
    (∃ t, step (load [0x02]) = .next t ∧ t.unfaulted) ∧
      (∃ t, step (load [0x21, 0x09, 0x00, 0x00, 0x00]) = .next t ∧ t.unfaulted ∧ t.pc = 9) ∧
      (∃ t, step { load [0x22, 0x09, 0x00, 0x00, 0x00] with regF := 1 } = .next t ∧ t.unfaulted ∧ t.pc = 9) ∧
      ∃ t, step { load [0xB1] with la := 9 } = .next t ∧ t.unfaulted ∧ t.pc = 9 :=
  ⟨⟨_, rfl, nofun⟩, ⟨_, rfl, nofun, rfl⟩, ⟨_, rfl, nofun, rfl⟩, _, rfl, nofun, rfl⟩

theorem witness_FaultsArePrecise :
    ∃ t r, step (load [0xC5]) = .next t ∧ t.status = .faulted r := ⟨_, _, rfl, rfl⟩

theorem witness_FaultCauses_decode :
    ∃ t r, step (load [0xC5]) = .next t ∧ t.status = .faulted r ∧ r.cause = .decode 0xC5 := ⟨_, _, rfl, rfl, rfl⟩

theorem witness_FaultCauses_byteWrite :
    ∃ t r, step (load [0x41]) = .next t ∧ t.status = .faulted r ∧ r.cause = .addressing .byteWrite 0 :=
  ⟨_, _, rfl, rfl, rfl⟩

theorem witness_FaultCauses_intRead :
    ∃ t r, step (load [0xBF]) = .next t ∧ t.status = .faulted r ∧ r.cause = .addressing .intRead 7 :=
  ⟨_, _, rfl, rfl, rfl⟩

theorem witness_FaultCauses_intWrite_zero :
    ∃ t r, step (load [0x81]) = .next t ∧ t.status = .faulted r ∧ r.cause = .addressing .intWrite 0 :=
  ⟨_, _, rfl, rfl, rfl⟩

theorem witness_FaultCauses_intWrite_seven :
    ∃ t r, step (load [0xBE]) = .next t ∧ t.status = .faulted r ∧ r.cause = .addressing .intWrite 7 :=
  ⟨_, _, rfl, rfl, rfl⟩

theorem witness_FaultCauses_opcode_fetch :
    ∃ t r, step (load []) = .next t ∧ t.status = .faulted r ∧ r.cause = .bounds 0 := ⟨_, _, rfl, rfl, rfl⟩

theorem witness_FaultCauses_operand_fetch :
    ∃ t r, step (load [0x88, 0x01, 0x02, 0x03]) = .next t ∧ t.status = .faulted r ∧ r.cause = .bounds 4 :=
  ⟨_, _, rfl, rfl, rfl⟩

theorem witness_FaultCauses_indirect :
    ∃ t r, step ({ load [0x4F] with ptr := 0xFFFFFFFF, regC := 0xFF }) = .next t ∧ t.status = .faulted r ∧ r.cause = .bounds 4294967550 :=
  ⟨_, _, rfl, rfl, rfl⟩

theorem witness_HaltStopsTheMachine :
    (load [0x01]).status = .running ∧ (load [0x01]).peek (load [0x01]).pc.toNat = some 0x01 ∧
      (load []).status = .running ∧ firstMissing (load []) 0 :=
  ⟨rfl, rfl, rfl, rfl, fun j h => absurd h (Nat.not_lt_zero j)⟩

theorem witness_OutAppendsA :
    (load [0x02]).status = .running ∧ (load [0x02]).peek (load [0x02]).pc.toNat = some 0x02 ∧
      (load []).status = .running ∧ firstMissing (load []) 0 :=
  ⟨rfl, rfl, rfl, rfl, fun j h => absurd h (Nat.not_lt_zero j)⟩

theorem witness_CmpWritesInequalityToF :
    (load [0xC1]).status = .running ∧ (load [0xC1]).peek (load [0xC1]).pc.toNat = some 0xC1 ∧
      (load []).status = .running ∧ firstMissing (load []) 0 :=
  ⟨rfl, rfl, rfl, rfl, fun j h => absurd h (Nat.not_lt_zero j)⟩

theorem witness_AddWrapsModulo256 :
    (load [0xC2]).status = .running ∧ (load [0xC2]).peek (load [0xC2]).pc.toNat = some 0xC2 ∧
      (load []).status = .running ∧ firstMissing (load []) 0 :=
  ⟨rfl, rfl, rfl, rfl, fun j h => absurd h (Nat.not_lt_zero j)⟩

theorem witness_SubWrapsModulo256 :
    (load [0xC3]).status = .running ∧ (load [0xC3]).peek (load [0xC3]).pc.toNat = some 0xC3 ∧
      (load []).status = .running ∧ firstMissing (load []) 0 :=
  ⟨rfl, rfl, rfl, rfl, fun j h => absurd h (Nat.not_lt_zero j)⟩

theorem witness_XorIsBitwise :
    (load [0xC4]).status = .running ∧ (load [0xC4]).peek (load [0xC4]).pc.toNat = some 0xC4 ∧
      (load []).status = .running ∧ firstMissing (load []) 0 :=
  ⟨rfl, rfl, rfl, rfl, fun j h => absurd h (Nat.not_lt_zero j)⟩

theorem witness_HaltStopsTheMachine_exec : ∃ t, exec .halt (load [0x01]) = .next t := ⟨_, rfl⟩

theorem witness_HaltStopsTheMachine_step : ∃ t, step (load [0x01]) = .next t ∧ t.status = .halted := ⟨_, rfl, rfl⟩

theorem witness_XorIsBitwise_exec : ∃ t, exec .xor (load [0xC4]) = .next t := ⟨_, rfl⟩

/-- A target one past the end of memory, the branch taken. -/
theorem witness_JezJumpsWhenFIsZero_outside :
    { load [0x21, 5, 0, 0, 0] with regF := 0 }.status = .running ∧
      { load [0x21, 5, 0, 0, 0] with regF := 0 }.regF = 0x00 ∧
      { load [0x21, 5, 0, 0, 0] with regF := 0 }.cfg.memSize ≤ (5 : Word).toNat := by
  decide

/-- The whole instruction in memory; its last byte missing; its opcode byte missing. -/
theorem witness_JezJumpsWhenFIsZero :
    ((load [0x21, 1, 2, 3, 4]).status = .running ∧ (load [0x21, 1, 2, 3, 4]).peek 0 = some 0x21 ∧
      (load [0x21, 1, 2, 3, 4]).peek 1 = some 1 ∧ (load [0x21, 1, 2, 3, 4]).peek 2 = some 2 ∧
      (load [0x21, 1, 2, 3, 4]).peek 3 = some 3 ∧ (load [0x21, 1, 2, 3, 4]).peek 4 = some 4) ∧
    ((load [0x21, 1, 2, 3]).status = .running ∧ firstMissing (load [0x21, 1, 2, 3]) 4 ∧
      (load [0x21, 1, 2, 3]).peek 0 = some 0x21) ∧
    firstMissing (load []) 0 :=
  ⟨by decide, ⟨rfl, ⟨rfl, by decide⟩, rfl⟩, rfl, fun j h => absurd h (Nat.not_lt_zero j)⟩

/-- A target one past the end of memory, the branch taken. -/
theorem witness_JnzJumpsWhenFIsNotZero_outside :
    { load [0x22, 5, 0, 0, 0] with regF := 1 }.status = .running ∧
      { load [0x22, 5, 0, 0, 0] with regF := 1 }.regF ≠ 0x00 ∧
      { load [0x22, 5, 0, 0, 0] with regF := 1 }.cfg.memSize ≤ (5 : Word).toNat := by
  decide

/-- The whole instruction in memory; its last byte missing; its opcode byte missing. -/
theorem witness_JnzJumpsWhenFIsNotZero :
    ((load [0x22, 1, 2, 3, 4]).status = .running ∧ (load [0x22, 1, 2, 3, 4]).peek 0 = some 0x22 ∧
      (load [0x22, 1, 2, 3, 4]).peek 1 = some 1 ∧ (load [0x22, 1, 2, 3, 4]).peek 2 = some 2 ∧
      (load [0x22, 1, 2, 3, 4]).peek 3 = some 3 ∧ (load [0x22, 1, 2, 3, 4]).peek 4 = some 4) ∧
    ((load [0x22, 1, 2, 3]).status = .running ∧ firstMissing (load [0x22, 1, 2, 3]) 4 ∧
      (load [0x22, 1, 2, 3]).peek 0 = some 0x22) ∧
    firstMissing (load []) 0 :=
  ⟨by decide, ⟨rfl, ⟨rfl, by decide⟩, rfl⟩, rfl, fun j h => absurd h (Nat.not_lt_zero j)⟩

/-- The whole instruction in memory; its operand byte missing; its opcode byte missing. -/
theorem witness_AptrAddsUnsignedByte :
    ((load [0xE1, 5]).status = .running ∧ (load [0xE1, 5]).peek 0 = some 0xE1 ∧ (load [0xE1, 5]).peek 1 = some 5) ∧
    ((load [0xE1]).status = .running ∧ firstMissing (load [0xE1]) 1 ∧ (load [0xE1]).peek 0 = some 0xE1) ∧
    firstMissing (load []) 0 :=
  ⟨by decide, ⟨rfl, ⟨rfl, by decide⟩, rfl⟩, rfl, fun j h => absurd h (Nat.not_lt_zero j)⟩

theorem witness_CmpThenBranch :
    (load []).regA = (load []).regB ∧ { load [] with regA := 1 }.regA ≠ { load [] with regA := 1 }.regB := by decide

/-- All seven rows are there (also for MvStoresOneByte and MvToSelectorZeroFaults). -/
theorem witness_MvToRegister : ∀ k, k < 7 → ((mvPlainSources (load [0x49]) 0x2A)[k]?).isSome = true := by decide

/-- The last byte of memory; the address one past it; the sum 2^32, just outside every legal memory. -/
theorem witness_MvLoadsByteAtPtrPlusC :
    { load [0x4F, 0x99] with regC := 1 }.peek (0 + 1) = some 0x99 ∧
      { load [0x4F, 0x99] with ptr := 1, regC := 1 }.peek (1 + 1) = none ∧
      { load [0x4F] with ptr := 0xFFFFFFFF, regC := 1 }.cfg.wf = true ∧
      4294967296 ≤ { load [0x4F] with ptr := 0xFFFFFFFF, regC := 1 }.effectiveAddr := by
  decide

/-- The last byte of memory, and the address one past it. -/
theorem witness_MvStoresOneByte :
    { load [0x79, 0] with regC := 1 }.effectiveAddr < { load [0x79, 0] with regC := 1 }.cfg.memSize ∧
    { load [0x79, 0] with regC := 2 }.cfg.memSize ≤ { load [0x79, 0] with regC := 2 }.effectiveAddr := by decide

theorem witness_MvIndirectToItself :
    Memory.wf { load [0x7F, 0x42] with ptr := 1 }.mem ∧
    { load [0x7F, 0x42] with ptr := 1 }.effectiveAddr < { load [0x7F, 0x42] with ptr := 1 }.cfg.memSize := by decide

theorem witness_MvToSelectorZeroFaults :
    { load [0x47, 0] with ptr := 1 }.effectiveAddr < { load [0x47, 0] with ptr := 1 }.cfg.memSize := by decide

/-- All seven rows, and both values of `MV32_DST4` (the rows also for Mv32InvalidDestinationFaults). -/
theorem witness_Mv32ToRegister :
    (∀ k, k < 7 → ((mv32Sources (load [0xA1]) 5)[k]?).isSome = true) ∧ (load [0xA1]).cfg.dst4 = .lc ∧
    { load [0xA1] with cfg := { memSize := 1, dst4 := .ld } }.cfg.dst4 = .ld := by decide

theorem witness_Mv32SourceSevenFaults :
    (load [0xBF]).status = .running ∧ (load [0xBF]).peek (load [0xBF]).pc.toNat = some 0xBF ∧ opTop 0xBF = 0b10 ∧
    opSrc 0xBF = 7 := by decide

/-- For each register a step that changes it. -/
theorem witness_WritersOfEachPiece_registers :
    after (load [0x4E, 0]) (·.regA) = some 0 ∧ after (load [0x48, 1]) (·.regA) = some 1 ∧
      after (load [0x50, 1]) (·.regB) = some 1 ∧ after (load [0x58, 1]) (·.regC) = some 1 ∧
      after (load [0x60, 1]) (·.regD) = some 1 ∧ after (load [0x68, 1]) (·.regE) = some 1 ∧
      after (load [0x70, 1]) (·.regF) = some 1 ∧ after (load [0x8E]) (·.la) = some 1 ∧
      after (load [0x96]) (·.lb) = some 1 ∧ after (load [0x9E]) (·.lc) = some 1 ∧ after (load [0xAE]) (·.ptr) = some 1 := by
  decide

/-- Destination selector 4 under both values of `MV32_DST4`, memory, and the output. -/
theorem witness_WritersOfEachPiece_others :
    after (load [0xA6]) (·.lc) = some 1 ∧
      after { load [0xA6] with cfg := { memSize := 1, dst4 := .ld } } (·.ld) = some 1 ∧
      after (load [0x78, 0x01]) (·.mem) = some [(0, 0x01), (1, 0x01)] ∧ after (load [0x02]) (·.out) = some [0x00] := by
  decide

/-- A HALT byte stored where the next instruction stands: byte 0 of a one-byte instruction, no other bytes. -/
theorem witness_StoredByteIsFetchedNext :
    { load [0x78, 0x01, 0x00] with regC := 2 }.status = .running ∧
      { load [0x78, 0x01, 0x00] with regC := 2 }.effectiveAddr < { load [0x78, 0x01, 0x00] with regC := 2 }.cfg.memSize ∧
      ((fun dst => Instr.mvImm dst 0x01), 0x01, 2) ∈ mvSources { load [0x78, 0x01, 0x00] with regC := 2 } 0x01 ∧
      (encode .halt)[0]? = some 0x01 ∧
      { load [0x78, 0x01, 0x00] with regC := 2 }.effectiveAddr =
        ({ load [0x78, 0x01, 0x00] with regC := 2 }.pc + 2).toNat + 0 ∧
      ∀ (j : Nat) (b : Byte), j ≠ 0 → (encode .halt)[j]? = some b →
        { load [0x78, 0x01, 0x00] with regC := 2 }.peek (2 + j) = some b :=
  ⟨rfl, by decide, .head _, rfl, rfl, fun j b hj h => by
    cases j with
    | zero => exact absurd rfl hj
    | succ j => cases h⟩

/-- The last byte of a five-byte instruction stored over a byte of zero, from `A`, at the end of memory. -/
theorem witness_StoredByteIsFetchedNext_operand :
    { load [0x79, 0x21, 1, 2, 3, 0] with regC := 5, regA := 4 }.effectiveAddr <
        { load [0x79, 0x21, 1, 2, 3, 0] with regC := 5, regA := 4 }.cfg.memSize ∧
      (.mvA, 4, 1) ∈ mvSources { load [0x79, 0x21, 1, 2, 3, 0] with regC := 5, regA := 4 } 0 ∧
      (encode (.jez 0x04030201))[4]? = some 4 ∧
      { load [0x79, 0x21, 1, 2, 3, 0] with regC := 5, regA := 4 }.effectiveAddr =
        ({ load [0x79, 0x21, 1, 2, 3, 0] with regC := 5, regA := 4 }.pc + 1).toNat + 4 ∧
      ∀ (j : Nat) (b : Byte), j ≠ 4 → (encode (.jez 0x04030201))[j]? = some b →
        { load [0x79, 0x21, 1, 2, 3, 0] with regC := 5, regA := 4 }.peek (1 + j) = some b :=
  ⟨by decide, .tail _ (.head _), rfl, rfl, fun j b hj h => by
    match j with
    | 0 => exact h
    | 1 => exact h
    | 2 => exact h
    | 3 => exact h
    | 4 => exact absurd rfl hj
    | j + 5 => cases h⟩

/-- An illegal byte stored where the next instruction stands, and the row of source selector 7, which stores what it read. -/
theorem witness_StoredByteIsFetchedNext_illegal :
    illegalOpcode 0xC5 = true ∧
      (.mvInd, 0xC5, 1) ∈ mvSources { load [0x7F, 0xC5] with regC := 1 } 0 ∧
      { load [0x7F, 0xC5] with regC := 1 }.effectiveAddr < { load [0x7F, 0xC5] with regC := 1 }.cfg.memSize ∧
      { load [0x7F, 0xC5] with regC := 1 }.effectiveAddr = ({ load [0x7F, 0xC5] with regC := 1 }.pc + 1).toNat :=
  ⟨by decide, .tail _ (.tail _ (.tail _ (.tail _ (.tail _ (.tail _ (.tail _ (.head _))))))), by decide, by decide⟩

theorem witness_ConstructionSetsResetValues : ([0x48, 0x2A] : List Byte).length ≤ addressSpace := by decide

theorem witness_ConstructionHasInvariant : construct .ld [0x48, 0x2A] =
    .next { load [0x48, 0x2A] with cfg := { memSize := 2, dst4 := .ld } } := rfl

/-- A state with a byte in memory has the invariant and takes a step. -/
theorem witness_StepKeepsInvariant : (load [0x48, 0x2A]).Inv ∧ ∃ t, step (load [0x48, 0x2A]) = .next t :=
  ⟨⟨by decide, by decide, by decide, fun _ => rfl, fun r h => by cases h⟩, _, rfl⟩

/-- One step of two: false and running; two of two: true and halted (S1, S2). -/
theorem witness_RunIsRepeatedStep :
    (load [0x48, 0x2A, 0x01]).status = .running ∧ (∃ t, run 1 (load [0x48, 0x2A, 0x01]) = .returned false t) ∧
      ∃ t, run 2 (load [0x48, 0x2A, 0x01]) = .returned true t :=
  ⟨rfl, ⟨_, rfl⟩, _, rfl⟩

theorem witness_RunContinuesAfterBudget : ∃ t, run 1 (load [0x48, 0x2A, 0x01]) = .returned false t := ⟨_, rfl⟩

/-- One complete step and a faulting one. -/
theorem witness_RunEndsAtFault : ∃ r t, run 2 (load [0x02, 0xC5]) = .raised r t ∧ r.cause = .decode 0xC5 ∧ t.out = [0] :=
  ⟨_, _, rfl, rfl, rfl⟩

theorem witness_RunOnStoppedMachine :
    { load [] with status := .halted }.status = .halted ∧
      ((load []).raise (.bounds 0)).status = .faulted { cause := .bounds 0, pc0 := 0 } := ⟨rfl, rfl⟩

/-- A source of two comments, one after white space, and an empty line; a source that assembles to an image that fits. -/
theorem witness_AssemblerWorkedExamples :
    (∀ line ∈ splitLines ['#', 'x', '\n', '\n', ' ', '#'], ∀ c ∈ stripComment line, isBlank c = true) ∧
      assemble ['0', '1'] = .ok [0x01] ∧ ([0x01] : List Byte).length ≤ addressSpace := by
  refine ⟨?_, by decide, by decide⟩
  simp [splitLines, stripComment, isBlank]

/-- A malformed token between two well-formed ones, one of them on an earlier line. -/
theorem witness_AssemblerDocumentOrder_token :
    textTokens ['4', '8', '\n', '2', 'G', ' ', '0', '1'] = [['4', '8']] ++ ['2', 'G'] :: [['0', '1']] ∧
      tokenByte ['4', '8'] ≠ none ∧ tokenByte ['2', 'G'] = none := by
  decide

theorem witness_AssemblerDocumentOrder :
    assemble ['4', '8'] = .ok [0x48] ∧ assemble ['2', 'A'] = .ok [0x2A] ∧
      assemble ['Z'] = .error (.assemblerFormat ['Z']) := by
  decide

end Sys2Proof.Tests
end

/-! PROOFS, the layer the state's obligations share: the encoding of what was decoded, the opcode bytes of the moves, what
a completed write leaves unchanged, and what a step can do, told by the opcode byte at `Pc`. -/

section

namespace Sys2Proof

/-- The bytes of a decoded instruction are its encoding (R80 to R88). -/
theorem encode_of_decode {bytes rest : List Byte} {i : Instr} (h : decode bytes = .ok (i, rest)) :
    bytes = encode i ++ rest := by
  cases bytes with
  | nil => cases h
  | cons op operands =>
    cases hs : opcodeShape op with
    | none =>
      rw [decode_cons_none hs] at h
      cases h
    | some shape =>
      rw [decode_cons hs] at h
      rcases decodeOperand_ok h with ⟨rfl, rfl⟩ | ⟨mk, b, rfl, rfl, rfl⟩ | ⟨mk, b0, b1, b2, b3, rfl, rfl, rfl⟩
      · rw [opcodeShape_bare hs]; rfl
      · rw [opcodeShape_imm8 hs]; rfl
      · rw [opcodeShape_imm32 hs, splitLe_joinLe]; rfl

/-- The per-instruction lemmas of Laws/PerInstr.lean, for all instructions. -/
theorem encode_eq_opcode_cons (i : Instr) :
    ∃ op tail, encode i = op :: tail ∧ opcodeLength op = some (encode i).length := by
  cases i with
  | halt => exact Laws.LengthByOpcode.halt
  | out => exact Laws.LengthByOpcode.out
  | jez a => exact Laws.LengthByOpcode.jez a
  | jnz a => exact Laws.LengthByOpcode.jnz a
  | cmp => exact Laws.LengthByOpcode.cmp
  | add => exact Laws.LengthByOpcode.add
  | sub => exact Laws.LengthByOpcode.sub
  | xor => exact Laws.LengthByOpcode.xor
  | aptr b => exact Laws.LengthByOpcode.aptr b
  | mvImm dst b => exact Laws.LengthByOpcode.mvImm dst b
  | mvA dst => exact Laws.LengthByOpcode.mvA dst
  | mvB dst => exact Laws.LengthByOpcode.mvB dst
  | mvC dst => exact Laws.LengthByOpcode.mvC dst
  | mvD dst => exact Laws.LengthByOpcode.mvD dst
  | mvE dst => exact Laws.LengthByOpcode.mvE dst
  | mvF dst => exact Laws.LengthByOpcode.mvF dst
  | mvInd dst => exact Laws.LengthByOpcode.mvInd dst
  | mv32Imm dst w => exact Laws.LengthByOpcode.mv32Imm dst w
  | mv32La dst => exact Laws.LengthByOpcode.mv32La dst
  | mv32Lb dst => exact Laws.LengthByOpcode.mv32Lb dst
  | mv32Lc dst => exact Laws.LengthByOpcode.mv32Lc dst
  | mv32LcAlias dst => exact Laws.LengthByOpcode.mv32LcAlias dst
  | mv32Ptr dst => exact Laws.LengthByOpcode.mv32Ptr dst
  | mv32Pc dst => exact Laws.LengthByOpcode.mv32Pc dst
  | mv32Src7 dst => exact Laws.LengthByOpcode.mv32Src7 dst

/-- An opcode byte that calls for one operand byte has length 2 (R89). -/
theorem opcodeLength_of_imm8 {op : Byte} {mk : Byte → Instr} (h : opcodeShape op = some (.imm8 mk)) :
    opcodeLength op = some 2 := by
  obtain ⟨op', tail, he, hl⟩ := encode_eq_opcode_cons (mk 0)
  rw [opcodeShape_imm8 h] at he hl
  cases he
  exact hl

/-- An opcode byte that calls for four operand bytes has length 5 (R89). -/
theorem opcodeLength_of_imm32 {op : Byte} {mk : Word → Instr} (h : opcodeShape op = some (.imm32 mk)) :
    opcodeLength op = some 5 := by
  obtain ⟨op', tail, he, hl⟩ := encode_eq_opcode_cons (mk 0)
  rw [opcodeShape_imm32 h] at he hl
  cases he
  exact hl

/-- The length of an MV by its source selector (R89). -/
def mvLength (src : Sel) : Nat := if src = 0 then 2 else 1

/-- The length of an MV32 by its source selector (R89). -/
def mv32Length (src : Sel) : Nat := if src = 0 then 5 else 1

theorem opcodeLength_mvOpcode (dst : ByteDst) (src : Sel) :
    opcodeLength (mvOpcode dst src) = some (mvLength src) := by
  revert src; cases dst <;> decide

theorem opcodeLength_mv32Opcode (dst : IntDst) (src : Sel) :
    opcodeLength (mv32Opcode dst src) = some (mv32Length src) := by
  revert src; cases dst <;> decide

/-- The eight opcode bytes of one MV destination are consecutive (R85). -/
theorem mvOpcode_bounds (dst : ByteDst) (src : Sel) :
    mvOpcode dst 0 ≤ mvOpcode dst src ∧ mvOpcode dst src ≤ mvOpcode dst 7 := by
  revert src; cases dst <;> decide

/-- The opcode bytes of one MV32 destination and the valid sources are consecutive (R86). -/
theorem mv32Opcode_bounds (dst : IntDst) {src : Sel} (h : src ≠ 7) :
    mv32Opcode dst 0 ≤ mv32Opcode dst src ∧ mv32Opcode dst src ≤ mv32Opcode dst 6 := by
  revert src; cases dst <;> decide

theorem mvOpcode_ne_halt (dst : ByteDst) (src : Sel) : mvOpcode dst src ≠ 0x01 := by
  revert src; cases dst <;> decide

theorem mv32Opcode_ne_halt (dst : IntDst) (src : Sel) : mv32Opcode dst src ≠ 0x01 := by
  revert src; cases dst <;> decide

end Sys2Proof

namespace Sys2Proof.Machine

open Sys2Proof

/-- A fetch shorter than asked for ended at an address without a byte (R59). -/
theorem peek_after_codeBytes {s : State} {a n : Nat} (h : (codeBytes s a n).length < n) :
    s.peek (a + (codeBytes s a n).length) = none := by
  induction n generalizing a with
  | zero => omega
  | succ n ih =>
    cases hp : s.peek a with
    | none => rw [codeBytes_none hp]; exact hp
    | some b =>
      rw [codeBytes_some hp] at h ⊢
      rw [List.length_cons] at h ⊢
      rw [Nat.add_comm _ 1, ← Nat.add_assoc]
      exact ih (by omega)

/-- Fetched bytes begin with the byte at the address. -/
theorem peek_of_codeBytes_cons {s : State} {a n : Nat} {b : Byte} {tail : List Byte}
    (h : codeBytes s a n = b :: tail) : s.peek a = some b :=
  codeBytes_peek (k := 0) (by rw [h]; rfl)

/-- Everything a byte write that completes can do (R162). -/
theorem writeByte_ok_cases {dst : ByteDst} {v : Byte} {s t : State} (h : writeByte dst v s = .ok t) :
    (dst = .a ∧ t = { s with regA := v }) ∨ (dst = .b ∧ t = { s with regB := v }) ∨
    (dst = .c ∧ t = { s with regC := v }) ∨ (dst = .d ∧ t = { s with regD := v }) ∨
    (dst = .e ∧ t = { s with regE := v }) ∨ (dst = .f ∧ t = { s with regF := v }) ∨
    (dst = .indirect ∧ s.effectiveAddr < s.cfg.memSize ∧
      t = { s with mem := Memory.write s.mem s.effectiveAddr v }) := by
  cases dst with
  | immediate => cases h
  | a => cases h; simp
  | b => cases h; simp
  | c => cases h; simp
  | d => cases h; simp
  | e => cases h; simp
  | f => cases h; simp
  | indirect =>
    by_cases hb : s.effectiveAddr < s.cfg.memSize
    · rw [writeByte, memWrite_ok v hb] at h
      cases h; simp [hb]
    · rw [writeByte, memWrite_error v (by omega)] at h
      cases h

/-- Everything a 32-bit write that completes can do (R182). -/
theorem writeInt_ok_cases {dst : IntDst} {v : Word} {s t : State} (h : writeInt dst v s = .ok t) :
    (dst = .la ∧ t = { s with la := v }) ∨ (dst = .lb ∧ t = { s with lb := v }) ∨
    (dst = .lc ∧ t = { s with lc := v }) ∨
    (dst = .l4 ∧ s.cfg.dst4 = .lc ∧ t = { s with lc := v }) ∨
    (dst = .l4 ∧ s.cfg.dst4 = .ld ∧ t = { s with ld := v }) ∨
    (dst = .ptr ∧ t = { s with ptr := v }) ∨ (dst = .pc ∧ t = { s with pc := v }) := by
  cases dst with
  | immediate => cases h
  | la => cases h; simp
  | lb => cases h; simp
  | lc => cases h; simp
  | l4 =>
    cases h
    unfold State.setL4
    split <;> rename_i hd <;> simp [hd]
  | ptr => cases h; simp
  | pc => cases h; simp
  | indirect => cases h

/-- The store form of MV inside memory (R55, R160). -/
theorem moveByte_indirect_ok {s : State} (len : Nat) (v : Byte) (h : s.effectiveAddr < s.cfg.memSize) :
    moveByte len .indirect v s = .next { s.advance len with mem := Memory.write s.mem s.effectiveAddr v } :=
  congrArg (complete s) (memWrite_ok (s := s.advance len) v h)

/-- The store form of MV outside memory (R55, R160). -/
theorem moveByte_indirect_error {s : State} (len : Nat) (v : Byte) (h : s.cfg.memSize ≤ s.effectiveAddr) :
    moveByte len .indirect v s = .next (s.raise (.bounds s.effectiveAddr)) :=
  congrArg (complete s) (memWrite_error (s := s.advance len) v h)

/-- Why a byte write does not complete (R162). -/
theorem writeByte_error_cases {dst : ByteDst} {v : Byte} {s : State} {c : Cause} (h : writeByte dst v s = .error c) :
    (dst = .immediate ∧ c = .addressing .byteWrite 0) ∨
      (dst = .indirect ∧ s.cfg.memSize ≤ s.effectiveAddr ∧ c = .bounds s.effectiveAddr) := by
  cases dst with
  | immediate => cases h; simp
  | indirect =>
    by_cases hb : s.effectiveAddr < s.cfg.memSize
    · rw [writeByte, memWrite_ok v hb] at h
      cases h
    · rw [writeByte, memWrite_error v (by omega)] at h
      cases h; simp; omega
  | a | b | c | d | e | f => cases h

/-- MV32 to destination selector 4 with `MV32_DST4 = Lc` (R182, decision D8). -/
theorem moveInt_l4_of_lc {s : State} (len : Nat) (v : Word) (h : s.cfg.dst4 = .lc) :
    moveInt len .l4 v s = .next { s.advance len with lc := v } := by
  simp [moveInt, writeInt, State.setL4, h]

/-- MV32 to destination selector 4 with `MV32_DST4 = Ld` (R182, decision D8). -/
theorem moveInt_l4_of_ld {s : State} (len : Nat) (v : Word) (h : s.cfg.dst4 = .ld) :
    moveInt len .l4 v s = .next { s.advance len with ld := v } := by
  simp [moveInt, writeInt, State.setL4, h]

/-- Why a 32-bit write does not complete (R182). -/
theorem writeInt_error_cases {dst : IntDst} {v : Word} {s : State} {c : Cause} (h : writeInt dst v s = .error c) :
    (dst = .immediate ∧ c = .addressing .intWrite 0) ∨ (dst = .indirect ∧ c = .addressing .intWrite 7) := by
  cases dst with
  | immediate => cases h; simp
  | indirect => cases h; simp
  | la | lb | lc | l4 | ptr | pc => cases h

/-- What a byte write leaves unchanged, and the one thing it can do to memory (R162). -/
theorem writeByte_frame {dst : ByteDst} {v : Byte} {s t : State} (h : writeByte dst v s = .ok t) :
    t.status = s.status ∧ t.pc = s.pc ∧ t.cfg = s.cfg ∧ t.ld = s.ld ∧
      (t.mem = s.mem ∨ s.effectiveAddr < s.cfg.memSize ∧ t.mem = Memory.write s.mem s.effectiveAddr v) := by
  rcases writeByte_ok_cases h with ⟨-, rfl⟩ | ⟨-, rfl⟩ | ⟨-, rfl⟩ | ⟨-, rfl⟩ | ⟨-, rfl⟩ | ⟨-, rfl⟩ | ⟨-, hb, rfl⟩ <;>
    simp_all

/-- What a 32-bit write leaves unchanged, and when it can change `Pc` and `Ld` (R182). -/
theorem writeInt_frame {dst : IntDst} {v : Word} {s t : State} (h : writeInt dst v s = .ok t) :
    t.status = s.status ∧ (t.pc = s.pc ∨ dst = .pc) ∧ t.cfg = s.cfg ∧ (t.ld = s.ld ∨ s.cfg.dst4 = .ld) ∧
      t.mem = s.mem := by
  rcases writeInt_ok_cases h with ⟨-, rfl⟩ | ⟨-, rfl⟩ | ⟨-, rfl⟩ | ⟨-, -, rfl⟩ | ⟨-, hd, rfl⟩ | ⟨-, rfl⟩ | ⟨hd, rfl⟩ <;>
    simp [*]

/-! What a step can do, by the opcode byte at `Pc`. `Completes` and `FaultsWith` list it; `step_effect` says that they
list everything. -/

/-- The states in which a step on an opcode byte completes (R127, R140, R141, R150, R151, R160, R180, R200 to R203, R220). -/
inductive Completes (s : State) : Byte → State → Prop
  | halt : Completes s 0x01 { s.advance 1 with status := .halted }
  | out : Completes s 0x02 ((s.advance 1).outAppend s.regA)
  | jez {target : Word} (h : s.regF = 0 ∨ target = s.pc + 5) : Completes s 0x21 { s with pc := target }
  | jnz {target : Word} (h : s.regF ≠ 0 ∨ target = s.pc + 5) : Completes s 0x22 { s with pc := target }
  | cmp : Completes s 0xC1 { s.advance 1 with regF := cmpFlag s.regA s.regB }
  | add : Completes s 0xC2 { s.advance 1 with regA := s.regA + s.regB }
  | sub : Completes s 0xC3 { s.advance 1 with regA := s.regA - s.regB }
  | xor : Completes s 0xC4 { s.advance 1 with regA := s.regA ^^^ s.regB }
  | aptr (imm8 : Byte) : Completes s 0xE1 { s.advance 2 with ptr := s.ptr + imm8.setWidth 32 }
  | mv {dst : ByteDst} {src : Sel} {v : Byte} {t : State} (h : writeByte dst v (s.advance (mvLength src)) = .ok t) :
    Completes s (mvOpcode dst src) t
  | mv32 {dst : IntDst} {src : Sel} {v : Word} {t : State} (hsrc : src ≠ 7)
    (h : writeInt dst v (s.advance (mv32Length src)) = .ok t) : Completes s (mv32Opcode dst src) t

/-- The causes with which a step on an opcode byte can fault (R230 to R233, R237). -/
inductive FaultsWith (s : State) : Byte → Cause → Prop
  | illegal {op : Byte} (h : illegalOpcode op = true) : FaultsWith s op (.decode op)
  | operand {op : Byte} {len k : Nat} (hlen : opcodeLength op = some len) (hpos : 0 < k) (hk : k < len)
    (hmissing : s.peek (s.pc.toNat + k) = none) : FaultsWith s op (.bounds (s.pc.toNat + k))
  | load (dst : ByteDst) (h : s.cfg.memSize ≤ s.effectiveAddr) : FaultsWith s (mvOpcode dst 7) (.bounds s.effectiveAddr)
  | store (src : Sel) (h : s.cfg.memSize ≤ s.effectiveAddr) :
    FaultsWith s (mvOpcode .indirect src) (.bounds s.effectiveAddr)
  | byteWrite (src : Sel) : FaultsWith s (mvOpcode .immediate src) (.addressing .byteWrite 0)
  | intRead (dst : IntDst) : FaultsWith s (mv32Opcode dst 7) (.addressing .intRead 7)
  | intWriteZero {src : Sel} (h : src ≠ 7) : FaultsWith s (mv32Opcode .immediate src) (.addressing .intWrite 0)
  | intWriteSeven {src : Sel} (h : src ≠ 7) : FaultsWith s (mv32Opcode .indirect src) (.addressing .intWrite 7)

/-- A step on an opcode byte either completes or raises a fault. -/
def Effect (s : State) (op : Byte) (t : State) : Prop :=
  Completes s op t ∨ ∃ c, FaultsWith s op c ∧ t = s.raise c

/-- An MV whose source is resolved has an effect of its opcode byte (R160, R162). -/
theorem effect_of_moveByte {dst : ByteDst} {src : Sel} {v : Byte} {s t : State}
    (h : moveByte (mvLength src) dst v s = .next t) : Effect s (mvOpcode dst src) t := by
  unfold moveByte at h
  cases hw : writeByte dst v (s.advance (mvLength src)) with
  | ok u =>
    rw [hw] at h
    cases h
    exact .inl (.mv hw)
  | error c =>
    rw [hw] at h
    cases h
    rcases writeByte_error_cases hw with ⟨rfl, rfl⟩ | ⟨rfl, hb, rfl⟩
    · exact .inr ⟨_, .byteWrite src, rfl⟩
    · exact .inr ⟨_, .store src hb, rfl⟩

/-- An MV32 with a valid source has an effect of its opcode byte (R180, R182). -/
theorem effect_of_moveInt {dst : IntDst} {src : Sel} (hsrc : src ≠ 7) {v : Word} {s t : State}
    (h : moveInt (mv32Length src) dst v s = .next t) : Effect s (mv32Opcode dst src) t := by
  unfold moveInt at h
  cases hw : writeInt dst v (s.advance (mv32Length src)) with
  | ok u =>
    rw [hw] at h
    cases h
    exact .inl (.mv32 hsrc hw)
  | error c =>
    rw [hw] at h
    cases h
    rcases writeInt_error_cases hw with ⟨rfl, rfl⟩ | ⟨rfl, rfl⟩
    · exact .inr ⟨_, .intWriteZero hsrc, rfl⟩
    · exact .inr ⟨_, .intWriteSeven hsrc, rfl⟩

theorem flagZero_eq_true {s : State} : s.flagZero = true ↔ s.regF = 0 := by simp [State.flagZero]

/-- An execution has an effect of the instruction's opcode byte (R127). -/
theorem effect_of_exec {i : Instr} {s t : State} {op : Byte} {operands : List Byte} (he : encode i = op :: operands)
    (h : exec i s = .next t) : Effect s op t := by
  cases i with
  | halt => cases he; cases h; exact .inl .halt
  | out => cases he; cases h; exact .inl .out
  | jez a =>
    cases he
    cases h
    split
    · rename_i hf
      exact .inl (.jez (.inl (flagZero_eq_true.1 hf)))
    · exact .inl (.jez (.inr rfl))
  | jnz a =>
    cases he
    cases h
    split
    · rename_i hf
      exact .inl (.jnz (.inl fun h0 => by simp [flagZero_eq_true.2 h0] at hf))
    · exact .inl (.jnz (.inr rfl))
  | cmp => cases he; cases h; exact .inl .cmp
  | add => cases he; cases h; exact .inl .add
  | sub => cases he; cases h; exact .inl .sub
  | xor => cases he; cases h; exact .inl .xor
  | aptr b => cases he; cases h; exact .inl (.aptr b)
  | mvImm dst b => cases he; exact effect_of_moveByte (src := 0) h
  | mvA dst => cases he; exact effect_of_moveByte (src := 1) h
  | mvB dst => cases he; exact effect_of_moveByte (src := 2) h
  | mvC dst => cases he; exact effect_of_moveByte (src := 3) h
  | mvD dst => cases he; exact effect_of_moveByte (src := 4) h
  | mvE dst => cases he; exact effect_of_moveByte (src := 5) h
  | mvF dst => cases he; exact effect_of_moveByte (src := 6) h
  | mvInd dst =>
    cases he
    rcases execMvInd_cases h with ⟨hb, rfl⟩ | ⟨-, hm⟩
    · exact .inr ⟨_, .load dst hb, rfl⟩
    · exact effect_of_moveByte (src := 7) hm
  | mv32Imm dst w => cases he; exact effect_of_moveInt (src := 0) (by decide) h
  | mv32La dst => cases he; exact effect_of_moveInt (src := 1) (by decide) h
  | mv32Lb dst => cases he; exact effect_of_moveInt (src := 2) (by decide) h
  | mv32Lc dst => cases he; exact effect_of_moveInt (src := 3) (by decide) h
  | mv32LcAlias dst => cases he; exact effect_of_moveInt (src := 4) (by decide) h
  | mv32Ptr dst => cases he; exact effect_of_moveInt (src := 5) (by decide) h
  | mv32Pc dst => cases he; exact effect_of_moveInt (src := 6) (by decide) h
  | mv32Src7 dst => cases he; cases h; exact .inr ⟨_, .intRead dst, rfl⟩

/-- Bytes that do not decode raise the fault of a missing opcode byte or one of the opcode byte's faults (R122 to R124). -/
theorem fetch_fault_cases {s : State} {e : DecodeError} (h : decode (codeBytes s s.pc.toNat 5) = .error e) :
    (s.peek s.pc.toNat = none ∧ e = .missingByte 0) ∨
      ∃ op, s.peek s.pc.toNat = some op ∧
        ((e = .unknownOpcode op ∧ FaultsWith s op (.decode op)) ∨
          ∃ k, e = .missingByte k ∧ FaultsWith s op (.bounds (s.pc.toNat + k))) := by
  rcases decode_error_cases h with ⟨hnil, rfl⟩ | ⟨op, rest, hcons, hnone, rfl⟩ | ⟨op, rest, shape, hcons, hs, rfl, hshort⟩
  · have hnone := peek_after_codeBytes (s := s) (a := s.pc.toNat) (n := 5) (by simp [hnil])
    rw [hnil] at hnone
    exact .inl ⟨hnone, rfl⟩
  · exact .inr ⟨op, peek_of_codeBytes_cons hcons, .inl ⟨rfl, .illegal ((opcodeShape_eq_none op).1 hnone)⟩⟩
  · have hlen : (codeBytes s s.pc.toNat 5).length = rest.length + 1 := by rw [hcons, List.length_cons]
    have hlong : ∃ len, opcodeLength op = some len ∧ rest.length + 1 < len ∧ len ≤ 5 := by
      rcases hshort with ⟨mk, rfl, hr⟩ | ⟨mk, rfl, hr⟩
      · exact ⟨2, opcodeLength_of_imm8 hs, by omega, by omega⟩
      · exact ⟨5, opcodeLength_of_imm32 hs, by omega, by omega⟩
    obtain ⟨len, hop, hlt, hle⟩ := hlong
    have hmissing := peek_after_codeBytes (s := s) (a := s.pc.toNat) (n := 5) (by omega)
    exact .inr ⟨op, peek_of_codeBytes_cons hcons, .inr ⟨_, rfl, .operand hop (by omega) (by omega) hmissing⟩⟩

/-- Everything a step can do: it begins in Running; without a byte at `Pc` it takes the bounds fault of the opcode fetch;
with one it has an effect of that byte. -/
theorem step_effect {s t : State} (h : step s = .next t) :
    s.status = .running ∧
      ((s.peek s.pc.toNat = none ∧ t = s.raise (.bounds s.pc.toNat)) ∨
        ∃ op, s.peek s.pc.toNat = some op ∧ Effect s op t) := by
  obtain ⟨hrun, ⟨i, rest, hd, hexec⟩ | ⟨op, hd, rfl⟩ | ⟨k, hd, rfl⟩⟩ := step_cases h
  · obtain ⟨op, operands, he, -⟩ := encode_eq_opcode_cons i
    have hbytes := encode_of_decode hd
    rw [he, List.cons_append] at hbytes
    exact ⟨hrun, .inr ⟨op, peek_of_codeBytes_cons hbytes, effect_of_exec he hexec⟩⟩
  · rcases fetch_fault_cases hd with ⟨-, he⟩ | ⟨op', hp, ⟨he, hf⟩ | ⟨k, he, -⟩⟩ <;> cases he
    exact ⟨hrun, .inr ⟨op, hp, .inr ⟨_, hf, rfl⟩⟩⟩
  · rcases fetch_fault_cases hd with ⟨hp, he⟩ | ⟨op', hp, ⟨he, -⟩ | ⟨k, he, hf⟩⟩ <;> cases he
    · exact ⟨hrun, .inl ⟨hp, rfl⟩⟩
    · exact ⟨hrun, .inr ⟨op', hp, .inr ⟨_, hf, rfl⟩⟩⟩

end Sys2Proof.Machine

end

/-! PROOFS, the invariant: every step keeps it (O44), reset and construction have it (O42, O43). -/

section

namespace Sys2Proof.Machine

open Sys2Proof

/-- The record of a fault that a step can raise fits the state it is raised in (R230 to R233). -/
theorem FaultsWith.recordOk {s : State} {op : Byte} {c : Cause} (hf : FaultsWith s op c)
    (hp : s.peek s.pc.toNat = some op) : s.recordOk { cause := c, pc0 := s.pc } := by
  refine ⟨rfl, ?_⟩
  cases hf with
  | illegal h => exact ⟨h, hp⟩
  | operand hlen hpos hk hmissing => exact State.peek_eq_none.1 hmissing
  | load dst h => exact h
  | store src h => exact h
  | byteWrite src => exact .inl ⟨rfl, rfl⟩
  | intRead dst => exact .inr (.inl ⟨rfl, rfl⟩)
  | intWriteZero h => exact .inr (.inr ⟨rfl, .inl rfl⟩)
  | intWriteSeven h => exact .inr (.inr ⟨rfl, .inr rfl⟩)

/-- Raising a fault whose record fits the state keeps the invariant (R238). -/
theorem State.Inv.raise {s : State} (hs : s.Inv) {c : Cause} (hc : s.recordOk { cause := c, pc0 := s.pc }) :
    (s.raise c).Inv where
  memSize_legal := hs.memSize_legal
  mem_wf := hs.mem_wf
  mem_inside := hs.mem_inside
  ld_zero := hs.ld_zero
  record_ok := fun r hr => by
    cases hr
    exact hc

/-- A completed step leaves no fault and keeps the parameters; it changes `Ld` only where destination 4 names it (R24), and
memory only by one byte written inside it (R127). -/
theorem Completes.frame {s t : State} {op : Byte} (hc : Completes s op t) (hrun : s.status = .running) :
    t.unfaulted ∧ t.cfg = s.cfg ∧ (t.ld = s.ld ∨ s.cfg.dst4 = .ld) ∧
      (t.mem = s.mem ∨ ∃ v, s.effectiveAddr < s.cfg.memSize ∧ t.mem = Memory.write s.mem s.effectiveAddr v) := by
  cases hc with
  | halt => simp [State.unfaulted]
  | mv hw =>
    obtain ⟨hstatus, -, hcfg, hld, hmem⟩ := writeByte_frame hw
    exact ⟨by simp [State.unfaulted, hstatus, hrun], hcfg, .inl hld, hmem.imp_right fun h => ⟨_, h⟩⟩
  | mv32 hsrc hw =>
    obtain ⟨hstatus, -, hcfg, hld, hmem⟩ := writeInt_frame hw
    exact ⟨by simp [State.unfaulted, hstatus, hrun], hcfg, hld, .inl hmem⟩
  | out | jez | jnz | cmp | add | sub | xor | aptr => simp [State.unfaulted, hrun]

/-- A completed step keeps the invariant. -/
theorem State.Inv.completes {s t : State} {op : Byte} (hs : s.Inv) (hc : Completes s op t)
    (hrun : s.status = .running) : t.Inv := by
  obtain ⟨hunfaulted, hcfg, hld, hmem⟩ := hc.frame hrun
  refine ⟨by rw [hcfg]; exact hs.memSize_legal, ?_, ?_, ?_, fun r hr => absurd hr (hunfaulted r)⟩
  · rcases hmem with hmem | ⟨v, -, hmem⟩ <;> rw [hmem]
    · exact hs.mem_wf
    · exact Memory.write_wf hs.mem_wf _ v
  · rw [hcfg]
    rcases hmem with hmem | ⟨v, hb, hmem⟩ <;> rw [hmem]
    · exact hs.mem_inside
    · intro cell hcell
      rcases Memory.mem_write hcell with hk | hold
      · rw [hk]; exact hb
      · exact hs.mem_inside cell hold
  · rw [hcfg]
    intro hd
    rcases hld with hld | hld
    · rw [hld]; exact hs.ld_zero hd
    · rw [hd] at hld; cases hld

/-- Settles O44: a completed step by its frame, a faulting one because the record it leaves fits the state. -/
theorem stepKeepsInvariant : Obligations.StepKeepsInvariant := by
  intro s t hs h
  obtain ⟨hrun, ⟨hnone, rfl⟩ | ⟨op, hp, hc | ⟨c, hf, rfl⟩⟩⟩ := step_effect h
  · exact hs.raise ⟨rfl, State.peek_eq_none.1 hnone⟩
  · exact hs.completes hc hrun
  · exact hs.raise (hf.recordOk hp)

/-- Settles O43: the cells of an image lie inside it, in canonical form, and every other field is at its reset value. -/
theorem constructionHasInvariant : Obligations.ConstructionHasInvariant := by
  intro d image s h
  obtain ⟨hlen, rfl⟩ := construct_next h
  exact {
    memSize_legal := hlen
    mem_wf := Memory.ofBytes_wf 0 image
    mem_inside := fun cell hcell => by
      have hbound := (Memory.mem_ofBytes hcell).2.1
      simpa using hbound
    ld_zero := fun _ => rfl
    record_ok := fun r hr => by cases hr }

/-- Settles O42: reset is the construction with the empty image, which has the invariant by O43. -/
theorem resetHasInvariant : Obligations.ResetHasInvariant :=
  constructionHasInvariant .lc [] State.reset rfl

/-- Settles O40: the registers are those of `State.reset`, and an image reads as its bytes and ends with them. -/
theorem constructionSetsResetValues : Obligations.ConstructionSetsResetValues := by
  intro d image hlen
  refine ⟨_, if_pos hlen, rfl, rfl, rfl, rfl, rfl, rfl, rfl, rfl, rfl, rfl, rfl, rfl, rfl, rfl, rfl, rfl, fun i => ?_⟩
  by_cases hi : i < image.length
  · have hread := Memory.read_ofBytes 0 i image
    rw [Nat.zero_add] at hread
    rw [State.peek_of_lt hi, hread]
    simp [hi]
  · rw [State.peek_eq_none.2 (Nat.le_of_not_lt hi)]
    simp at hi ⊢
    exact hi

/-- Settles O45: the host maps the memory read over the valid addresses, which is what `peek` reads there. -/
theorem hostReadsEveryByte : Obligations.HostReadsEveryByte := by
  intro s i
  by_cases hi : i < s.cfg.memSize
  · rw [State.peek_of_lt hi]
    simp [readMemory, hi]
  · rw [State.peek_eq_none.2 (Nat.le_of_not_lt hi)]
    simp [readMemory]
    omega

end Sys2Proof.Machine

end

/-! PROOFS, what a step does to the status (O14), to `Pc` (O15) and to each piece of state (O36). -/

section

namespace Sys2Proof.Machine

open Sys2Proof

/-- HALT cannot fault: its byte is legal, it has no operand byte, and it is no move (R140, R236). -/
theorem FaultsWith.ne_halt {s : State} {op : Byte} {c : Cause} (hf : FaultsWith s op c) : op ≠ 0x01 := by
  cases hf with
  | illegal h => rintro rfl; cases h
  | operand hlen hpos hk hmissing => rintro rfl; cases hlen; omega
  | load dst h => exact mvOpcode_ne_halt dst 7
  | store src h => exact mvOpcode_ne_halt .indirect src
  | byteWrite src => exact mvOpcode_ne_halt .immediate src
  | intRead dst => exact mv32Opcode_ne_halt dst 7
  | intWriteZero h => exact mv32Opcode_ne_halt .immediate _
  | intWriteSeven h => exact mv32Opcode_ne_halt .indirect _

/-- Of the completed steps only that of HALT ends in Halted (R28). -/
theorem Completes.halted_iff {s t : State} {op : Byte} (hc : Completes s op t) (hrun : s.status = .running) :
    t.status = .halted ↔ op = 0x01 := by
  cases hc with
  | halt => simp
  | mv hw =>
    obtain ⟨hstatus, -⟩ := writeByte_frame hw
    exact iff_of_false (by simp [hstatus, hrun]) (mvOpcode_ne_halt _ _)
  | mv32 hsrc hw =>
    obtain ⟨hstatus, -⟩ := writeInt_frame hw
    exact iff_of_false (by simp [hstatus, hrun]) (mv32Opcode_ne_halt _ _)
  | out | jez | jnz | cmp | add | sub | xor | aptr => simp [hrun]

/-- Settles O14: HALT's step completes and no other completed step moves the status; a fault ends in Faulted. -/
theorem onlyHaltHalts : Obligations.OnlyHaltHalts := by
  refine ⟨rfl, fun s t h => ?_⟩
  obtain ⟨hrun, ⟨hnone, rfl⟩ | ⟨op, hp, hc | ⟨c, hf, rfl⟩⟩⟩ := step_effect h
  · simp [hrun, hnone]
  · rw [hp, Option.some.injEq]
    exact ⟨hrun, hc.halted_iff hrun⟩
  · rw [hp, Option.some.injEq]
    exact ⟨hrun, iff_of_false (by simp) hf.ne_halt⟩

/-- `Pc` after a completed step (R26, R150, R151, R182). -/
theorem Completes.pc_cases {s t : State} {op : Byte} (hc : Completes s op t) :
    ∃ len, opcodeLength op = some len ∧
      (t.pc = s.pc + BitVec.ofNat 32 len ∨ (op = 0x21 ∧ s.regF = 0) ∨ (op = 0x22 ∧ s.regF ≠ 0) ∨
        (0xB0 ≤ op ∧ op ≤ 0xB6)) := by
  cases hc with
  | halt | out | cmp | add | sub | xor | aptr => exact ⟨_, rfl, .inl rfl⟩
  | jez h => exact ⟨5, rfl, h.elim (fun hz => .inr (.inl ⟨rfl, hz⟩)) .inl⟩
  | jnz h => exact ⟨5, rfl, h.elim (fun hz => .inr (.inr (.inl ⟨rfl, hz⟩))) .inl⟩
  | mv hw =>
    obtain ⟨-, hpc, -⟩ := writeByte_frame hw
    exact ⟨_, opcodeLength_mvOpcode _ _, .inl hpc⟩
  | mv32 hsrc hw =>
    obtain ⟨-, hpc | rfl, -⟩ := writeInt_frame hw
    · exact ⟨_, opcodeLength_mv32Opcode _ _, .inl hpc⟩
    · exact ⟨_, opcodeLength_mv32Opcode _ _, .inr (.inr (.inr (mv32Opcode_bounds .pc hsrc)))⟩

/-- Settles O15: an unfaulted step completed, and a completed step moves `Pc` as its opcode byte says. -/
theorem pcAfterStep : Obligations.PcAfterStep := by
  intro s t h hunfaulted
  obtain ⟨-, ⟨-, rfl⟩ | ⟨op, hp, hc | ⟨c, -, rfl⟩⟩⟩ := step_effect h
  · exact absurd rfl (hunfaulted _)
  · obtain ⟨len, hlen, hpc⟩ := hc.pc_cases
    exact ⟨op, len, hp, hlen, hpc⟩
  · exact absurd rfl (hunfaulted _)

/-- What a completed MV can change, by its opcode byte (R162). -/
theorem writeByte_writers {dst : ByteDst} (src : Sel) {v : Byte} {s t : State} (h : writeByte dst v s = .ok t) :
    (t.regA ≠ s.regA → 0x48 ≤ mvOpcode dst src ∧ mvOpcode dst src ≤ 0x4F) ∧
    (t.regB ≠ s.regB → 0x50 ≤ mvOpcode dst src ∧ mvOpcode dst src ≤ 0x57) ∧
    (t.regC ≠ s.regC → 0x58 ≤ mvOpcode dst src ∧ mvOpcode dst src ≤ 0x5F) ∧
    (t.regD ≠ s.regD → 0x60 ≤ mvOpcode dst src ∧ mvOpcode dst src ≤ 0x67) ∧
    (t.regE ≠ s.regE → 0x68 ≤ mvOpcode dst src ∧ mvOpcode dst src ≤ 0x6F) ∧
    (t.regF ≠ s.regF → 0x70 ≤ mvOpcode dst src ∧ mvOpcode dst src ≤ 0x77) ∧
    (t.mem ≠ s.mem → 0x78 ≤ mvOpcode dst src ∧ mvOpcode dst src ≤ 0x7F) ∧
    t.la = s.la ∧ t.lb = s.lb ∧ t.lc = s.lc ∧ t.ld = s.ld ∧ t.ptr = s.ptr ∧ t.out = s.out ∧ t.cfg = s.cfg := by
  have hop := mvOpcode_bounds dst src
  rcases writeByte_ok_cases h with ⟨rfl, rfl⟩ | ⟨rfl, rfl⟩ | ⟨rfl, rfl⟩ | ⟨rfl, rfl⟩ | ⟨rfl, rfl⟩ | ⟨rfl, rfl⟩ |
    ⟨rfl, -, rfl⟩ <;> simp <;> exact fun _ => hop

/-- What a completed MV32 can change, by its opcode byte (R182, R24). -/
theorem writeInt_writers {dst : IntDst} {src : Sel} (hsrc : src ≠ 7) {v : Word} {s t : State}
    (h : writeInt dst v s = .ok t) :
    (t.la ≠ s.la → 0x88 ≤ mv32Opcode dst src ∧ mv32Opcode dst src ≤ 0x8E) ∧
    (t.lb ≠ s.lb → 0x90 ≤ mv32Opcode dst src ∧ mv32Opcode dst src ≤ 0x96) ∧
    (t.lc ≠ s.lc → (0x98 ≤ mv32Opcode dst src ∧ mv32Opcode dst src ≤ 0x9E) ∨
      (s.cfg.dst4 = .lc ∧ 0xA0 ≤ mv32Opcode dst src ∧ mv32Opcode dst src ≤ 0xA6)) ∧
    (t.ld ≠ s.ld → s.cfg.dst4 = .ld ∧ 0xA0 ≤ mv32Opcode dst src ∧ mv32Opcode dst src ≤ 0xA6) ∧
    (t.ptr ≠ s.ptr → 0xA8 ≤ mv32Opcode dst src ∧ mv32Opcode dst src ≤ 0xAE) ∧
    t.regA = s.regA ∧ t.regB = s.regB ∧ t.regC = s.regC ∧ t.regD = s.regD ∧ t.regE = s.regE ∧ t.regF = s.regF ∧
    t.mem = s.mem ∧ t.out = s.out ∧ t.cfg = s.cfg := by
  have hop := mv32Opcode_bounds dst hsrc
  rcases writeInt_ok_cases h with ⟨rfl, rfl⟩ | ⟨rfl, rfl⟩ | ⟨rfl, rfl⟩ | ⟨rfl, hd, rfl⟩ | ⟨rfl, hd, rfl⟩ | ⟨rfl, rfl⟩ |
    ⟨rfl, rfl⟩
  · simp; exact fun _ => hop
  · simp; exact fun _ => hop
  · simp; exact fun _ => .inl hop
  · simp; exact fun _ => .inr ⟨hd, hop⟩
  · simp; exact fun _ => ⟨hd, hop⟩
  · simp; exact fun _ => hop
  · simp

/-- Settles O36: a raised fault changes the status alone; of the completed steps the moves change what their destination
names, and each fixed opcode byte its own piece. -/
theorem writersOfEachPiece : Obligations.WritersOfEachPiece := by
  intro s t op h hp
  obtain ⟨-, ⟨hnone, -⟩ | ⟨op', hp', heffect⟩⟩ := step_effect h
  · rw [hp] at hnone; cases hnone
  · obtain rfl : op = op' := Option.some.inj (hp.symm.trans hp')
    rcases heffect with hc | ⟨c, -, rfl⟩
    · cases hc with
      | halt | out | jez | jnz | cmp | add | sub | xor | aptr => simp
      | @mv dst src v t hw =>
        obtain ⟨hA, hB, hC, hD, hE, hF, hmem, hla, hlb, hlc, hld, hptr, hout, hcfg⟩ := writeByte_writers src hw
        exact ⟨fun hne => .inr (.inr (.inr (hA hne))), hB, hC, hD, hE, fun hne => .inr (hF hne), absurd hla,
          absurd hlb, absurd hlc, absurd hld, absurd hptr, hmem, absurd hout, hcfg⟩
      | @mv32 dst src v t hsrc hw =>
        obtain ⟨hla, hlb, hlc, hld, hptr, hA, hB, hC, hD, hE, hF, hmem, hout, hcfg⟩ := writeInt_writers hsrc hw
        exact ⟨absurd hA, absurd hB, absurd hC, absurd hD, absurd hE, absurd hF, hla, hlb, hlc, hld,
          fun hne => .inr (hptr hne), absurd hmem, absurd hout, hcfg⟩
    · simp

end Sys2Proof.Machine

end

/-! PROOFS, what no instruction reads: `Ld` (O37) and the output buffer (O38), by one comparison of two steps. -/

section

namespace Sys2Proof.Machine

open Sys2Proof

/-- A state with other contents in the two pieces that no instruction reads: `Ld` (R24) and the output (R33). -/
def State.withUnread (s : State) (v : Word) (o : List Byte) : State := { s with ld := v, out := o }

/-- The second outcome is the first up to the unread pieces: the outcomes are of one kind; the bytes appended to the output
are the same; the two `Ld` agree if they did before. -/
def SameButUnread (s : State) (v : Word) (o : List Byte) (x y : Host.Outcome State Fault Refusal) : Prop :=
  match x with
  | .next t => ∃ w new, t.out = s.out ++ new ∧ (v = s.ld → w = t.ld) ∧ y = .next (t.withUnread w (o ++ new))
  | .fault r => y = .fault r
  | .refused r => y = .refused r

/-- A next state that keeps both unread pieces keeps them in the other step too. -/
theorem sameButUnread_of_keeps {s t : State} {v : Word} {o : List Byte} (hld : t.ld = s.ld) (hout : t.out = s.out) :
    SameButUnread s v o (.next t) (.next (t.withUnread v o)) :=
  ⟨v, [], by simp [hout], fun hv => hv.trans hld.symm, by simp⟩

/-- Fetch reads memory alone (R122). -/
theorem codeBytes_congr {s u : State} (h : ∀ a, u.peek a = s.peek a) (a n : Nat) : codeBytes u a n = codeBytes s a n := by
  induction n generalizing a with
  | zero => rfl
  | succ n ih =>
    cases hp : s.peek a with
    | none => rw [codeBytes_none hp, codeBytes_none ((h a).trans hp)]
    | some b => rw [codeBytes_some hp, codeBytes_some ((h a).trans hp), ih]

theorem fetch_withUnread (s : State) (v : Word) (o : List Byte) : fetch (s.withUnread v o) = fetch s := by
  have hbytes : codeBytes (s.withUnread v o) s.pc.toNat 5 = codeBytes s s.pc.toNat 5 := codeBytes_congr (fun _ => rfl) _ _
  unfold fetch
  rw [show (s.withUnread v o).pc = s.pc from rfl, hbytes]

/-- A branch, taken or not, keeps both pieces (R150, R151). -/
theorem branch_sameButUnread (s : State) (v : Word) (o : List Byte) (taken : Bool) (target : Word) :
    SameButUnread s v o (branch taken target s) (branch taken target (s.withUnread v o)) := by
  cases taken with
  | false | true => exact sameButUnread_of_keeps rfl rfl

/-- An MV reads neither piece and changes neither (R160, R162). -/
theorem moveByte_sameButUnread (s : State) (v : Word) (o : List Byte) (len : Nat) (dst : ByteDst) (x : Byte) :
    SameButUnread s v o (moveByte len dst x s) (moveByte len dst x (s.withUnread v o)) := by
  cases dst with
  | immediate | a | b | c | d | e | f => exact sameButUnread_of_keeps rfl rfl
  | indirect =>
    by_cases hb : s.effectiveAddr < s.cfg.memSize
    · rw [moveByte_indirect_ok len x hb, moveByte_indirect_ok (s := s.withUnread v o) len x hb]
      exact sameButUnread_of_keeps rfl rfl
    · have hb := Nat.le_of_not_lt hb
      rw [moveByte_indirect_error len x hb, moveByte_indirect_error (s := s.withUnread v o) len x hb]
      exact sameButUnread_of_keeps rfl rfl

/-- An MV32 reads neither piece; destination 4 can write `Ld`, with the same value in both steps (R180, R182, R24). -/
theorem moveInt_sameButUnread (s : State) (v : Word) (o : List Byte) (len : Nat) (dst : IntDst) (x : Word) :
    SameButUnread s v o (moveInt len dst x s) (moveInt len dst x (s.withUnread v o)) := by
  cases dst with
  | immediate | la | lb | lc | ptr | pc | indirect => exact sameButUnread_of_keeps rfl rfl
  | l4 =>
    cases hd : s.cfg.dst4 with
    | lc =>
      rw [moveInt_l4_of_lc len x hd, moveInt_l4_of_lc (s := s.withUnread v o) len x hd]
      exact sameButUnread_of_keeps rfl rfl
    | ld =>
      rw [moveInt_l4_of_ld len x hd, moveInt_l4_of_ld (s := s.withUnread v o) len x hd]
      exact ⟨x, [], (List.append_nil _).symm, fun _ => rfl, by rw [List.append_nil]; rfl⟩

/-- No instruction reads `Ld` or the output: the executions in two states that differ there alone differ there at most. -/
theorem exec_sameButUnread (i : Instr) (s : State) (v : Word) (o : List Byte) :
    SameButUnread s v o (exec i s) (exec i (s.withUnread v o)) := by
  cases i with
  | halt | cmp | add | sub | xor | aptr | mv32Src7 => exact sameButUnread_of_keeps rfl rfl
  | out => exact ⟨v, [s.regA], rfl, id, rfl⟩
  | jez a => exact branch_sameButUnread s v o s.flagZero a
  | jnz a => exact branch_sameButUnread s v o (!s.flagZero) a
  | mvImm | mvA | mvB | mvC | mvD | mvE | mvF => exact moveByte_sameButUnread s v o _ _ _
  | mvInd dst =>
    unfold exec execMvInd
    rw [show readIndirect (s.withUnread v o) = readIndirect s from rfl]
    cases readIndirect s with
    | ok x => exact moveByte_sameButUnread s v o 1 dst x
    | error c => exact sameButUnread_of_keeps rfl rfl
  | mv32Imm | mv32La | mv32Lb | mv32Lc | mv32LcAlias | mv32Ptr | mv32Pc => exact moveInt_sameButUnread s v o _ _ _

/-- The same for the steps. -/
theorem step_sameButUnread (s : State) (v : Word) (o : List Byte) :
    SameButUnread s v o (step s) (step (s.withUnread v o)) := by
  unfold step
  rw [fetch_withUnread, show (s.withUnread v o).status = s.status from rfl]
  cases s.status with
  | running =>
    cases fetch s with
    | ok i => exact exec_sameButUnread i s v o
    | error c => exact sameButUnread_of_keeps rfl rfl
  | halted => rfl
  | faulted r => rfl

/-- Settles O37: the comparison of two steps for the same output and another `Ld`. -/
theorem ldIsUnreadable : Obligations.LdIsUnreadable := by
  intro s v
  have hsame := step_sameButUnread s v s.out
  cases hx : step s with
  | next t =>
    rw [hx] at hsame
    obtain ⟨w, new, hout, -, hstep⟩ := hsame
    rw [← hout] at hstep
    exact ⟨w, hstep⟩
  | fault r => rw [hx] at hsame; exact hsame
  | refused r => rw [hx] at hsame; exact hsame

/-- Settles O38: the comparison of two steps for the same `Ld` and another output. -/
theorem outputIsUnreadable : Obligations.OutputIsUnreadable := by
  intro s earlier
  have hsame := step_sameButUnread s s.ld earlier
  cases hx : step s with
  | next t =>
    rw [hx] at hsame
    obtain ⟨w, new, hout, hw, hstep⟩ := hsame
    rw [hw rfl] at hstep
    exact ⟨new, hout, hstep⟩
  | fault r => rw [hx] at hsame; exact hsame
  | refused r => rw [hx] at hsame; exact hsame

end Sys2Proof.Machine

end


/-! PROOFS, memory: the fetch of a missing byte (O11), the store form of MV (O30), and the fetch of a stored byte (O39). -/

section

namespace Sys2Proof

/-- No instruction is longer than five bytes (R89). -/
theorem opcodeLength_le_five {op : Byte} {len : Nat} (h : opcodeLength op = some len) : len ≤ 5 := by
  unfold opcodeLength at h
  repeat' split at h
  all_goals cases h
  all_goals decide

theorem encode_length_le_five (i : Instr) : (encode i).length ≤ 5 := by
  obtain ⟨op, tail, -, hlen⟩ := encode_eq_opcode_cons i
  exact opcodeLength_le_five hlen

/-- An opcode byte that has a length is legal (R89, R90). -/
theorem opcodeShape_ne_none_of_length {op : Byte} {len : Nat} (h : opcodeLength op = some len) :
    opcodeShape op ≠ none := by
  have key : ∀ op : Byte, (opcodeLength op).isSome = (opcodeShape op).isSome := by decide +kernel
  have hsome := key op
  rw [h] at hsome
  exact Option.isSome_iff_ne_none.1 hsome.symm

/-- Fewer bytes than the opcode byte's length lack the byte after the last one (R59). -/
theorem decode_of_short {op : Byte} {rest : List Byte} {len : Nat} (hlen : opcodeLength op = some len)
    (hshort : (op :: rest).length < len) : decode (op :: rest) = .error (.missingByte (op :: rest).length) := by
  cases hd : decode (op :: rest) with
  | ok answer =>
    obtain ⟨i, after⟩ := answer
    obtain ⟨op', tail, he, hl⟩ := encode_eq_opcode_cons i
    have hbytes := encode_of_decode hd
    have hle : (encode i).length ≤ (op :: rest).length := by rw [hbytes, List.length_append]; omega
    obtain rfl : op = op' := by
      rw [he] at hbytes
      exact (List.cons.inj hbytes).1
    obtain rfl : len = (encode i).length := Option.some.inj (hlen.symm.trans hl)
    omega
  | error e =>
    rcases Machine.decode_error_cases hd with ⟨hnil, -⟩ | ⟨op', _, hcons, hnone, -⟩ | ⟨_, _, _, -, -, rfl, -⟩
    · cases hnil
    · cases hcons
      exact absurd hnone (opcodeShape_ne_none_of_length hlen)
    · rfl

/-- An opcode byte that calls for four operand bytes decodes with those of a word to the instruction of that word (R88). -/
theorem decode_of_imm32 {op : Byte} {mk : Word → Instr} (h : opcodeShape op = some (.imm32 mk)) (w : Word)
    (rest : List Byte) : decode (op :: (splitLe w ++ rest)) = .ok (mk w, rest) := by
  rw [decode_cons h]
  exact congrArg (fun x => Except.ok (mk x, rest)) (joinLe_extract w)

/-- The bytes of an instruction decode to it, whatever follows: the fixed opcode bytes by evaluation, the moves by the shape
of their selectors (R80 to R88). -/
theorem decode_encode_append (i : Instr) (rest : List Byte) : decode (encode i ++ rest) = .ok (i, rest) := by
  cases i with
  | halt | out | cmp | add | sub | xor | aptr => rfl
  | jez w => exact decode_of_imm32 (mk := .jez) rfl w rest
  | jnz w => exact decode_of_imm32 (mk := .jnz) rfl w rest
  | mvImm dst | mvA dst | mvB dst | mvC dst | mvD dst | mvE dst | mvF dst | mvInd dst =>
    simp [encode, decode_cons (opcodeShape_mvOpcode dst _), mvShape, decodeOperand]
  | mv32Imm dst w =>
    have hshape : opcodeShape (mv32Opcode dst 0) = some (.imm32 (.mv32Imm dst)) := by
      simp [opcodeShape_mv32Opcode, mv32Shape]
    exact decode_of_imm32 hshape w rest
  | mv32La dst | mv32Lb dst | mv32Lc dst | mv32LcAlias dst | mv32Ptr dst | mv32Pc dst | mv32Src7 dst =>
    simp [encode, decode_cons (opcodeShape_mv32Opcode dst _), mv32Shape, decodeOperand]

end Sys2Proof

namespace Sys2Proof.Machine

open Sys2Proof

/-! Three ways a running machine's step begins, by the bytes at `Pc`. -/

/-- The bytes of an instruction at `Pc` run it (R122 to R128). -/
theorem step_of_encoded {s : State} {i : Instr} (hs : s.status = .running)
    (h : ∀ j b, (encode i)[j]? = some b → s.peek (s.pc.toNat + j) = some b) : step s = exec i s := by
  obtain ⟨tail, hbytes⟩ := codeBytes_prefix (encode_length_le_five i) h
  simp [step, fetch, hs, hbytes, decode_encode_append]

/-- An illegal opcode byte at `Pc` raises its decode fault (R90, R231). -/
theorem step_of_illegal {s : State} {op : Byte} (hs : s.status = .running) (hp : s.peek s.pc.toNat = some op)
    (hop : illegalOpcode op = true) : step s = .next (s.raise (.decode op)) := by
  have hd : decode (codeBytes s s.pc.toNat 5) = .error (.unknownOpcode op) := by
    rw [codeBytes_some hp]
    exact decode_cons_none ((opcodeShape_eq_none op).2 hop) _
  exact step_decode_error hs hd

/-- Fetch finds that the first missing byte is missing, if the opcode byte calls for it (R59, R122, R124). -/
theorem decode_codeBytes_of_firstMissing {s : State} {k : Nat} (hm : firstMissing s k)
    (hk : k = 0 ∨ ∃ op len, s.peek s.pc.toNat = some op ∧ opcodeLength op = some len ∧ k < len) :
    decode (codeBytes s s.pc.toNat 5) = .error (.missingByte k) := by
  obtain ⟨hnone, hbefore⟩ := hm
  rcases hk with rfl | ⟨op, len, hp, hlen, hlt⟩
  · rw [codeBytes_none (a := s.pc.toNat) hnone]
    rfl
  · have hlength : (codeBytes s s.pc.toNat 5).length = k :=
      codeBytes_length (by have := opcodeLength_le_five hlen; omega) hnone hbefore
    rw [codeBytes_some hp] at hlength ⊢
    rw [decode_of_short hlen (by omega), hlength]

/-- Settles O11: the bytes before the missing one are fewer than the opcode byte's length, so fetch itself raises. -/
theorem missingByteRaisesBoundsFault : Obligations.MissingByteRaisesBoundsFault := by
  intro s k hs hm hk
  exact step_decode_error hs (decode_codeBytes_of_firstMissing hm hk)

/-! The store form of MV, for all its sources. -/

/-- An MV from a source other than `[Ptr+C]` is the rest of a move of the source's value (R160, R161). -/
theorem exec_mvPlainSource {s : State} {imm8 : Byte} {row : (ByteDst → Instr) × Byte × Word}
    (hrow : row ∈ mvPlainSources s imm8) :
    ∃ len, row.2.2 = BitVec.ofNat 32 len ∧ ∀ dst, exec (row.1 dst) s = moveByte len dst row.2.1 s := by
  simp only [mvPlainSources, List.mem_cons, List.not_mem_nil, or_false] at hrow
  rcases hrow with rfl | rfl | rfl | rfl | rfl | rfl | rfl
  · exact ⟨2, rfl, fun _ => rfl⟩
  all_goals exact ⟨1, rfl, fun _ => rfl⟩

/-- The load form of MV inside memory is the rest of a move of the byte read (R161). -/
theorem execMvInd_ok {s : State} (dst : ByteDst) (h : s.effectiveAddr < s.cfg.memSize) :
    execMvInd dst s = moveByte 1 dst (Memory.read s.mem s.effectiveAddr) s := by
  rw [execMvInd, readIndirect, memRead_some (State.peek_of_lt h)]

/-- An MV from any of the eight sources, with `Ptr + C` inside memory (R160, R161). -/
theorem exec_mvSource {s : State} {imm8 : Byte} {row : (ByteDst → Instr) × Byte × Word}
    (hrow : row ∈ mvSources s imm8) (hb : s.effectiveAddr < s.cfg.memSize) :
    ∃ len, row.2.2 = BitVec.ofNat 32 len ∧ ∀ dst, exec (row.1 dst) s = moveByte len dst row.2.1 s := by
  rcases List.mem_append.1 hrow with hplain | hind
  · exact exec_mvPlainSource hplain
  · obtain rfl := List.mem_singleton.1 hind
    exact ⟨1, rfl, fun dst => execMvInd_ok dst hb⟩

/-- The state a completed store leaves: `v` at `Ptr + C`, and `Pc` past the instruction (R55, R58, R160). -/
def State.afterStore (s : State) (v : Byte) (len : Word) : State :=
  { s with pc := s.pc + len, mem := Memory.write s.mem s.effectiveAddr v }

@[simp] theorem State.afterStore_pc (s : State) (v : Byte) (len : Word) : (s.afterStore v len).pc = s.pc + len := rfl

@[simp] theorem State.afterStore_status (s : State) (v : Byte) (len : Word) :
    (s.afterStore v len).status = s.status := rfl

/-- After a store inside memory, its address holds the byte stored (R55). -/
theorem State.peek_afterStore_same {s : State} (v : Byte) (len : Word) (hb : s.effectiveAddr < s.cfg.memSize) :
    (s.afterStore v len).peek s.effectiveAddr = some v :=
  State.peek_eq_some.2 ⟨hb, Memory.read_write_same s.mem s.effectiveAddr v⟩

/-- Every other address reads as before (R55). -/
theorem State.peek_afterStore_other {s : State} (v : Byte) (len : Word) {a : Nat} (ha : a ≠ s.effectiveAddr) :
    (s.afterStore v len).peek a = s.peek a := by
  simp [State.peek, State.afterStore, Memory.read_write_other s.mem v ha]

/-- MV to `[Ptr+C]` inside memory completes as a store of its source's value (R55, R160 to R162). -/
theorem exec_mvSource_indirect {s : State} {imm8 : Byte} {row : (ByteDst → Instr) × Byte × Word}
    (hrow : row ∈ mvSources s imm8) (hb : s.effectiveAddr < s.cfg.memSize) :
    exec (row.1 .indirect) s = .next (s.afterStore row.2.1 row.2.2) := by
  obtain ⟨len, hlen, hexec⟩ := exec_mvSource hrow hb
  rw [hexec, moveByte_indirect_ok len row.2.1 hb, hlen]
  rfl

/-- Settles O30: inside memory the store and its two read-after-write laws; outside it the fault of the write. -/
theorem mvStoresOneByte : Obligations.MvStoresOneByte := by
  intro s imm8 row hrow
  refine ⟨fun hb => ?_, fun hb => ?_⟩
  · refine ⟨_, exec_mvSource_indirect (List.mem_append_left _ hrow) hb, ?_⟩
    rintro _ rfl
    exact ⟨Memory.read_write_same _ _ _, fun other hne => Memory.read_write_other _ _ hne⟩
  · obtain ⟨len, -, hexec⟩ := exec_mvPlainSource hrow
    rw [hexec, moveByte_indirect_error len row.2.1 hb]

/-- A store that puts byte `k` of an instruction among its other bytes puts the whole instruction there (R55). -/
theorem State.peek_afterStore_encoded {s : State} {v : Byte} {len : Word} {bytes : List Byte} {base k : Nat}
    (hb : s.effectiveAddr < s.cfg.memSize) (hk : bytes[k]? = some v) (haddr : s.effectiveAddr = base + k)
    (hothers : ∀ (j : Nat) (b : Byte), j ≠ k → bytes[j]? = some b → s.peek (base + j) = some b) :
    ∀ j b, bytes[j]? = some b → (s.afterStore v len).peek (base + j) = some b := by
  intro j b hj
  by_cases hjk : j = k
  · obtain rfl : v = b := by
      rw [hjk, hk] at hj
      exact Option.some.inj hj
    rw [hjk, ← haddr]
    exact State.peek_afterStore_same v len hb
  · rw [State.peek_afterStore_other v len (by omega)]
    exact hothers j b hjk hj

/-- Settles O39: fetch reads the memory the store left, in which the instruction, or the illegal byte, stands at `Pc`. -/
theorem storedByteIsFetchedNext : Obligations.StoredByteIsFetchedNext := by
  intro s imm8 hs hb row hrow
  refine ⟨_, exec_mvSource_indirect hrow hb, rfl, fun i k hk haddr hothers => ?_, fun haddr hop => ?_⟩
  · exact step_of_encoded hs (State.peek_afterStore_encoded hb hk haddr hothers)
  · refine step_of_illegal hs ?_ hop
    rw [State.afterStore_pc, ← haddr]
    exact State.peek_afterStore_same _ _ hb

end Sys2Proof.Machine

end

/-! PROOFS, the encoding: decoder and encoder are inverse (O1, O2), the bytes of the rows (O3, O4), the illegal opcode bytes
(O5), the length (O6), the two-stage lookup (O7), and the instruction whose bytes stand at `Pc` (O10). -/

section

namespace Sys2Proof

/-- The opcode byte of an MV row by the arithmetic of R85 and R99. -/
theorem mvOpcode_eq_ofNat (dst : ByteDst) (src : Sel) :
    mvOpcode dst src = BitVec.ofNat 8 (0x40 + 8 * dst.sel.toNat + src.toNat) := by
  revert src; cases dst <;> decide

/-- The opcode byte of an MV32 row by the arithmetic of R86 and R99. -/
theorem mv32Opcode_eq_ofNat (dst : IntDst) (src : Sel) :
    mv32Opcode dst src = BitVec.ofNat 8 (0x80 + 8 * dst.sel.toNat + src.toNat) := by
  revert src; cases dst <;> decide

/-- The two-stage lookup finds the selectors of an MV opcode byte by its mask (R83, R85). -/
theorem engineDecode_mvOpcode (dst : ByteDst) (src : Sel) :
    Machine.engineDecode (mvOpcode dst src) = .ok (.mv dst.sel src) := by
  revert src; cases dst <;> decide

/-- The two-stage lookup finds the selectors of an MV32 opcode byte by its mask (R83, R86). -/
theorem engineDecode_mv32Opcode (dst : IntDst) (src : Sel) :
    Machine.engineDecode (mv32Opcode dst src) = .ok (.mv32 dst.sel src) := by
  revert src; cases dst <;> decide

/-- The two-stage lookup of an instruction's opcode byte answers the instruction's kind and selectors (R83 to R86). -/
theorem engineDecode_of_encode {i : Instr} {op : Byte} {operands : List Byte} (h : encode i = op :: operands) :
    Machine.engineDecode op = .ok (Machine.decodedOf i) := by
  cases i with
  | halt | out | jez | jnz | cmp | add | sub | xor | aptr => cases h; rfl
  | mvImm dst | mvA dst | mvB dst | mvC dst | mvD dst | mvE dst | mvF dst | mvInd dst =>
    cases h; exact engineDecode_mvOpcode dst _
  | mv32Imm dst | mv32La dst | mv32Lb dst | mv32Lc dst | mv32LcAlias dst | mv32Ptr dst | mv32Pc dst | mv32Src7 dst =>
    cases h; exact engineDecode_mv32Opcode dst _

theorem decodedOf_kind (i : Instr) : (Machine.decodedOf i).kind = i.kind := by cases i <;> rfl

/-- The two-stage lookup rejects exactly the illegal opcode bytes (R83, R90). -/
theorem engineDecode_eq_error (op : Byte) :
    Machine.engineDecode op = .error (.decode op) ↔ illegalOpcode op = true := by
  revert op; decide +kernel

/-- The illegal opcode bytes are those with top bits `00` or `11` that are no fixed opcode (R90). -/
theorem illegalOpcode_iff (op : Byte) : illegalOpcode op = true ↔
    (op ∉ [0x01, 0x02, 0x21, 0x22, 0xC1, 0xC2, 0xC3, 0xC4, 0xE1] ∧ (opTop op = 0b00 ∨ opTop op = 0b11)) := by
  revert op; decide +kernel

/-- Exactly the illegal opcode bytes have no length (R89, R90). -/
theorem opcodeLength_eq_none (op : Byte) : opcodeLength op = none ↔ illegalOpcode op = true := by
  revert op; decide +kernel

/-- The decoder rejects exactly the illegal opcode bytes by name, whatever follows them (R83, R90). -/
theorem decode_unknownOpcode_iff (op : Byte) (rest : List Byte) :
    decode (op :: rest) = .error (.unknownOpcode op) ↔ illegalOpcode op = true := by
  rw [← opcodeShape_eq_none]
  refine ⟨fun h => ?_, fun hnone => decode_cons_none hnone rest⟩
  rcases Machine.decode_error_cases h with ⟨hnil, -⟩ | ⟨_, _, hcons, hnone, -⟩ | ⟨_, _, _, -, -, he, -⟩
  · cases hnil
  · cases hcons; exact hnone
  · cases he

/-- The opcode byte of a decoded instruction, its operand bytes and its length (R80, R89). -/
theorem encode_eq_of_decode_cons {op : Byte} {tail rest : List Byte} {i : Instr}
    (h : decode (op :: tail) = .ok (i, rest)) :
    ∃ operands, encode i = op :: operands ∧ opcodeLength op = some (encode i).length := by
  obtain ⟨op', operands, he, hlen⟩ := encode_eq_opcode_cons i
  have hbytes := encode_of_decode h
  rw [he, List.cons_append] at hbytes
  obtain ⟨rfl, -⟩ := List.cons.inj hbytes
  exact ⟨operands, he, hlen⟩

/-- A word that is the encoding of an instruction decodes to it with nothing left over. -/
theorem decode_of_eq_encode {i : Instr} {word : List Byte} (h : word = encode i) : decode word = .ok (i, []) := by
  rw [h, ← List.append_nil (encode i)]
  exact decode_encode_append i []

/-- Settles O1: the fixed opcode bytes by evaluation, the moves by the shape of their selectors. -/
theorem decodeAfterEncode : Obligations.DecodeAfterEncode := decode_encode_append

/-- Settles O2: an opcode byte's shape fixes the encoding of what it decodes to. -/
theorem encodeAfterDecode : Obligations.EncodeAfterDecode := fun _ _ _ h => encode_of_decode h

/-- Settles O3: the fixed rows as they stand, the moves by the arithmetic of their opcode bytes. -/
theorem encodingFormulas : Obligations.EncodingFormulas := by
  refine ⟨fun w => ⟨rfl, rfl⟩, ⟨rfl, rfl, rfl, rfl, rfl, rfl, fun _ => rfl⟩, fun place b => ?_, fun place w => ?_⟩
  · simp [encode, mvOpcode_eq_ofNat]
  · simp [encode, mv32Opcode_eq_ofNat]

/-- Settles O4: each word is the encoding of its instruction. -/
theorem sampleWordsDecode : Obligations.SampleWordsDecode :=
  ⟨decode_of_eq_encode rfl, decode_of_eq_encode rfl, decode_of_eq_encode rfl, decode_of_eq_encode rfl,
    decode_of_eq_encode rfl, decode_of_eq_encode rfl, decode_of_eq_encode rfl, decode_of_eq_encode rfl,
    decode_of_eq_encode rfl, decode_of_eq_encode rfl⟩

/-- Settles O5: the list of R90 is the bytes without a row, on which the decoder and so the fetch of a step reject. -/
theorem illegalOpcodesRaiseDecodeFault : Obligations.IllegalOpcodesRaiseDecodeFault :=
  ⟨illegalOpcode_iff, by decide +kernel, decode_unknownOpcode_iff, fun _ _ => Machine.step_of_illegal⟩

/-- Settles O6: the first byte of a decoded list is the opcode byte of its instruction, which has the length. -/
theorem lengthIsFixedByOpcode : Obligations.LengthIsFixedByOpcode := by
  refine ⟨fun op tail rest i h => ?_, opcodeLength_eq_none⟩
  obtain ⟨operands, -, hlen⟩ := encode_eq_of_decode_cons h
  exact ⟨hlen, by rw [encode_of_decode h, List.length_append]⟩

/-- Settles O7: the lookup answers for the opcode byte of a decoded instruction what its row stands for. -/
theorem rowsAgreeWithDecodeTable : Obligations.RowsAgreeWithDecodeTable := by
  refine ⟨fun op tail rest i h => ?_, engineDecode_eq_error⟩
  obtain ⟨operands, he, -⟩ := encode_eq_of_decode_cons h
  exact ⟨engineDecode_of_encode he, decodedOf_kind i⟩

/-- Settles O10: the bytes at `Pc` are the first ones fetched, and decode to the instruction whatever follows. -/
theorem bytesInMemoryRun : Obligations.BytesInMemoryRun := fun _ _ => Machine.step_of_encoded

end Sys2Proof

end

/-! PROOFS, the move forms that can never complete (O8). -/

section

namespace Sys2Proof.Machine

open Sys2Proof

/-- An MV to a destination that cannot be written raises (R91, R162, decision D6). -/
theorem moveByte_of_not_writable {dst : ByteDst} (h : dst.writable = false) (len : Nat) (v : Byte) (s : State) :
    moveByte len dst v s = .next (s.raise (.addressing .byteWrite 0)) := by
  cases dst with
  | immediate => rfl
  | a | b | c | d | e | f | indirect => cases h

/-- The load form of MV to such a destination raises for the read or for the write (R91, R161, R236). -/
theorem execMvInd_of_not_writable {dst : ByteDst} (h : dst.writable = false) (s : State) :
    ∃ c, execMvInd dst s = .next (s.raise c) := by
  unfold execMvInd
  cases readIndirect s with
  | ok v => exact ⟨_, moveByte_of_not_writable h 1 v s⟩
  | error c => exact ⟨c, rfl⟩

/-- An MV32 to a destination that cannot be written raises (R91, R182, decision D6). -/
theorem moveInt_of_not_writable {dst : IntDst} (h : dst.writable = false) (len : Nat) (v : Word) (s : State) :
    ∃ c, moveInt len dst v s = .next (s.raise c) := by
  cases dst with
  | immediate | indirect => exact ⟨_, rfl⟩
  | la | lb | lc | l4 | ptr | pc => cases h

/-- An instruction that is not completable raises in every state (R91). -/
theorem exec_of_not_completable {i : Instr} (h : i.completable = false) (s : State) :
    ∃ c, exec i s = .next (s.raise c) := by
  cases i with
  | halt | out | jez | jnz | cmp | add | sub | xor | aptr => cases h
  | mvImm | mvA | mvB | mvC | mvD | mvE | mvF => exact ⟨_, moveByte_of_not_writable h _ _ s⟩
  | mvInd dst => exact execMvInd_of_not_writable h s
  | mv32Imm | mv32La | mv32Lb | mv32Lc | mv32LcAlias | mv32Ptr | mv32Pc => exact moveInt_of_not_writable h _ _ s
  | mv32Src7 dst => exact ⟨_, rfl⟩

/-- An MV to a destination that can be written completes when `Ptr + C` is inside memory (R162). -/
theorem moveByte_of_writable {dst : ByteDst} (h : dst.writable = true) (len : Nat) (v : Byte) {s : State}
    (hs : s.unfaulted) (hb : s.effectiveAddr < s.cfg.memSize) : ∃ t, moveByte len dst v s = .next t ∧ t.unfaulted := by
  cases dst with
  | immediate => cases h
  | a | b | c | d | e | f => exact ⟨_, rfl, hs⟩
  | indirect => exact ⟨_, moveByte_indirect_ok len v hb, hs⟩

/-- An MV32 to a destination that can be written completes (R182). -/
theorem moveInt_of_writable {dst : IntDst} (h : dst.writable = true) (len : Nat) (v : Word) {s : State}
    (hs : s.unfaulted) : ∃ t, moveInt len dst v s = .next t ∧ t.unfaulted := by
  cases dst with
  | immediate | indirect => cases h
  | la | lb | lc | ptr | pc => exact ⟨_, rfl, hs⟩
  | l4 => exact ⟨_, rfl, fun r hr => hs r ((State.setL4_status (s.advance len) v).symm.trans hr)⟩

/-- A completable instruction completes in every unfaulted state whose `Ptr + C` is inside memory (R91). -/
theorem exec_of_completable {i : Instr} (h : i.completable = true) {s : State} (hs : s.unfaulted)
    (hb : s.effectiveAddr < s.cfg.memSize) : ∃ t, exec i s = .next t ∧ t.unfaulted := by
  cases i with
  | halt => exact ⟨_, rfl, fun r hr => by cases hr⟩
  | out | cmp | add | sub | xor | aptr => exact ⟨_, rfl, hs⟩
  | jez | jnz => exact ⟨_, rfl, by split <;> exact hs⟩
  | mvImm | mvA | mvB | mvC | mvD | mvE | mvF => exact moveByte_of_writable h _ _ hs hb
  | mvInd dst =>
    have hread : exec (.mvInd dst) s = moveByte 1 dst (Memory.read s.mem s.effectiveAddr) s := execMvInd_ok dst hb
    rw [hread]
    exact moveByte_of_writable h _ _ hs hb
  | mv32Imm | mv32La | mv32Lb | mv32Lc | mv32LcAlias | mv32Ptr | mv32Pc => exact moveInt_of_writable h _ _ hs
  | mv32Src7 dst => cases h

/-- A machine with one byte of memory, to which `Ptr + C` points. -/
def oneByteMachine : State := { State.reset with cfg := { memSize := 1, dst4 := .lc } }

theorem oneByteMachine_unfaulted : oneByteMachine.unfaulted := fun r hr => by cases hr

theorem oneByteMachine_effectiveAddr_lt : oneByteMachine.effectiveAddr < oneByteMachine.cfg.memSize := by decide

/-- Settles O8: the forms by their destination and source, the counts by running the decoder over the 256 opcode bytes. -/
theorem alwaysFaultingForms : Obligations.AlwaysFaultingForms := by
  refine ⟨fun i s h => exec_of_not_completable h s, fun i h => ?_, by decide +kernel, by decide +kernel⟩
  obtain ⟨t, hexec, ht⟩ := exec_of_completable h oneByteMachine_unfaulted oneByteMachine_effectiveAddr_lt
  exact ⟨oneByteMachine, t, rfl, hexec, ht⟩

end Sys2Proof.Machine

end

/-! PROOFS, the assembler: its tokens and bytes (O51), the worked examples (O50), the hex dump (O52). -/

section

namespace Sys2Proof.Machine

open Sys2Proof

/-! Lines and tokens. -/

theorem splitLines_ne_nil (text : List Char) : splitLines text ≠ [] := by
  cases text with
  | nil => simp [splitLines]
  | cons c cs =>
    unfold splitLines
    split
    · simp
    · split <;> simp

/-- A character other than LF goes to the front of the first line (R97). -/
theorem splitLines_cons {c : Char} (hc : c ≠ '\n') {cs line : List Char} {lines : List (List Char)}
    (h : splitLines cs = line :: lines) : splitLines (c :: cs) = (c :: line) :: lines := by
  rw [splitLines, if_neg hc, h]

/-- Joining two texts by a line feed joins their lines (R97). -/
theorem splitLines_append_lf (x y : List Char) : splitLines (x ++ '\n' :: y) = splitLines x ++ splitLines y := by
  induction x with
  | nil => rfl
  | cons c cs ih =>
    by_cases hc : c = '\n'
    · subst hc
      exact congrArg ([] :: ·) ih
    · obtain ⟨line, lines, hlines⟩ := List.exists_cons_of_ne_nil (splitLines_ne_nil cs)
      rw [hlines] at ih
      rw [splitLines_cons hc hlines, List.cons_append, splitLines_cons hc ih]
      rfl

/-- A text without LF is one line (R97). -/
theorem splitLines_of_no_lf {text : List Char} (h : '\n' ∉ text) : splitLines text = [text] := by
  induction text with
  | nil => rfl
  | cons c cs ih =>
    obtain ⟨hc, hcs⟩ : '\n' ≠ c ∧ '\n' ∉ cs := by simpa using h
    exact splitLines_cons hc.symm (ih hcs)

/-- Joining two texts by a line feed joins their tokens (R97). -/
theorem textTokens_append_lf (x y : List Char) : textTokens (x ++ '\n' :: y) = textTokens x ++ textTokens y := by
  rw [textTokens, splitLines_append_lf, List.flatMap_append]
  rfl

/-- White space alone holds no token (R97). -/
theorem tokensFrom_of_blank {line : List Char} (h : ∀ c ∈ line, isBlank c = true) : tokensFrom [] line = [] := by
  induction line with
  | nil => rfl
  | cons c cs ih =>
    obtain ⟨hc, hcs⟩ := List.forall_mem_cons.1 h
    rw [tokensFrom, if_pos hc, ih hcs]
    rfl

/-- Comments and white space alone hold no token (R96). -/
theorem textTokens_of_blank {text : List Char}
    (h : ∀ line ∈ splitLines text, ∀ c ∈ stripComment line, isBlank c = true) : textTokens text = [] :=
  List.flatMap_eq_nil_iff.2 fun line hline => tokensFrom_of_blank (h line hline)

/-- A line without `#` has no comment (R96). -/
theorem stripComment_of_no_hash {line : List Char} (h : '#' ∉ line) : stripComment line = line := by
  refine List.takeWhile_eq_self_iff.2 fun c hc => ?_
  simpa using fun he : c = '#' => h (he ▸ hc)

/-! Digits and the bytes of tokens. -/

/-- The hexadecimal digits of both cases (R97, decision D18). -/
def hexDigits : List Char :=
  ['0', '1', '2', '3', '4', '5', '6', '7', '8', '9', 'a', 'b', 'c', 'd', 'e', 'f', 'A', 'B', 'C', 'D', 'E', 'F']

/-- A digit is told by its code point. -/
theorem mem_hexDigits_iff (c : Char) : c ∈ hexDigits ↔
    (48 ≤ c.toNat ∧ c.toNat ≤ 57) ∨ (65 ≤ c.toNat ∧ c.toNat ≤ 70) ∨ (97 ≤ c.toNat ∧ c.toNat ≤ 102) := by
  have hcode : ∀ d : Char, c = d ↔ c.toNat = d.toNat := fun d => Char.toNat_inj.symm
  simp only [hexDigits, List.mem_cons, List.not_mem_nil, or_false, hcode]
  simp only [Char.reduceToNat]
  omega

/-- Exactly the hexadecimal digits have a value (R97). -/
theorem hexValue_ne_none (c : Char) : hexValue c ≠ none ↔ c ∈ hexDigits := by
  rw [mem_hexDigits_iff]
  simp only [hexValue]
  repeat' split
  all_goals simp; omega

/-- A token is well formed exactly when it is two hexadecimal digits (R97). -/
theorem tokenByte_ne_none (tok : List Char) : tokenByte tok ≠ none ↔ tok.length = 2 ∧ ∀ c ∈ tok, c ∈ hexDigits := by
  match tok with
  | [] | [_] | _ :: _ :: _ :: _ => simp [tokenByte]
  | [hi, lo] =>
    simp only [List.length_cons, List.length_nil, List.forall_mem_cons, List.not_mem_nil, ← hexValue_ne_none, tokenByte]
    cases hexValue hi <;> cases hexValue lo <;> simp

/-- The bytes of two runs of tokens one after the other: a fault of the first run goes before one of the second (R97). -/
theorem tokenBytes_append (first second : List (List Char)) :
    tokenBytes (first ++ second) = (do
      let bytes ← tokenBytes first
      let more ← tokenBytes second
      pure (bytes ++ more)) := by
  induction first with
  | nil => cases h : tokenBytes second <;> simp [tokenBytes, h] <;> rfl
  | cons tok toks ih =>
    simp only [List.cons_append, tokenBytes, ih]
    cases tokenByte tok with
    | none => rfl
    | some b =>
      cases tokenBytes toks with
      | error r => rfl
      | ok bytes => cases tokenBytes second <;> rfl

/-- Tokens have bytes exactly when each is well formed, and then each gives its own (R97). -/
theorem tokenBytes_eq_ok_iff (toks : List (List Char)) (bytes : List Byte) :
    tokenBytes toks = .ok bytes ↔ toks.map tokenByte = bytes.map some := by
  induction toks generalizing bytes with
  | nil => cases bytes <;> simp [tokenBytes]
  | cons tok toks ih =>
    rw [tokenBytes]
    cases hb : tokenByte tok with
    | none => cases bytes <;> simp [hb]
    | some b =>
      cases bytes with
      | nil => cases tokenBytes toks <;> simp
      | cons c cs =>
        have htail := ih cs
        cases hrest : tokenBytes toks with
        | ok bs => rw [hrest] at htail; simp_all
        | error r => rw [hrest] at htail; simp_all

/-- A malformed token faults when every token before it is well formed (R97). -/
theorem tokenBytes_of_malformed {before later : List (List Char)} {tok : List Char}
    (hbefore : ∀ earlier ∈ before, tokenByte earlier ≠ none) (htok : tokenByte tok = none) :
    tokenBytes (before ++ tok :: later) = .error (.assemblerFormat tok) := by
  induction before with
  | nil => simp [tokenBytes, htok]
  | cons earlier before ih =>
    obtain ⟨hearlier, hrest⟩ := List.forall_mem_cons.1 hbefore
    obtain ⟨b, hb⟩ := Option.ne_none_iff_exists'.1 hearlier
    simp [tokenBytes, hb, ih hrest]

/-- Two texts joined by a line feed assemble one after the other (R97). -/
theorem assemble_append_lf (x y : List Char) :
    assemble (x ++ '\n' :: y) = (do
      let bytes ← assemble x
      let more ← assemble y
      pure (bytes ++ more)) := by
  rw [assemble, textTokens_append_lf, tokenBytes_append]
  rfl

/-- Settles O51: the tokens of a joined text are those of its parts, and their bytes come in the tokens' order. -/
theorem assemblerDocumentOrder : Obligations.AssemblerDocumentOrder := by
  refine ⟨tokenByte_ne_none, fun text bytes => tokenBytes_eq_ok_iff _ _, ?_, ?_, ?_, ?_⟩
  · intro text tok before later htext hbefore htok
    rw [assemble, htext]
    exact tokenBytes_of_malformed hbefore htok
  · intro x y bx by' hx hy
    rw [assemble_append_lf, hx, hy]
    rfl
  · intro x y r hx
    rw [assemble_append_lf, hx]
    rfl
  · intro x y bx r hx hy
    rw [assemble_append_lf, hx, hy]
    rfl

/-- Settles O50: a text without tokens has no bytes, and the image is read back as O40 says. -/
theorem assemblerWorkedExamples : Obligations.AssemblerWorkedExamples := by
  refine ⟨by decide, rfl, fun text h => ?_, fun d text bytes _ hlen => ?_⟩
  · rw [assemble, textTokens_of_blank h]
    rfl
  · obtain ⟨s, hs, -, -, -, -, -, -, -, -, -, -, -, -, -, -, hsize, -, hpeek⟩ :=
      constructionSetsResetValues d bytes hlen
    exact ⟨s, hs, hsize, hpeek⟩

/-! The hex dump. -/

/-- The digit of a value below 16 has that value, and separates, ends and comments out nothing (R95 to R97). -/
theorem hexDigit_spec {n : Nat} (h : n < 16) :
    hexValue (hexDigit n) = some n ∧ isBlank (hexDigit n) = false ∧ hexDigit n ≠ '\n' ∧ hexDigit n ≠ '#' := by
  revert n; decide

/-- The two digits of a byte. -/
def byteToken (b : Byte) : List Char := [hexDigit (b.toNat / 16), hexDigit (b.toNat % 16)]

theorem tokenByte_byteToken (b : Byte) : tokenByte (byteToken b) = some b := by
  obtain ⟨hhi, -⟩ := hexDigit_spec (n := b.toNat / 16) (by have := b.isLt; omega)
  obtain ⟨hlo, -⟩ := hexDigit_spec (n := b.toNat % 16) (by omega)
  simp [tokenByte, byteToken, hhi, hlo, Nat.div_add_mod]

/-- The characters of a dump are the digits of its bytes and spaces. -/
theorem mem_hexDump {bytes : List Byte} {c : Char} (h : c ∈ hexDump bytes) : c = ' ' ∨ ∃ n < 16, c = hexDigit n := by
  induction bytes with
  | nil => cases h
  | cons b bytes ih =>
    simp only [hexDump, List.mem_cons] at h
    rcases h with rfl | rfl | rfl | h
    · exact .inr ⟨_, by have := b.isLt; omega, rfl⟩
    · exact .inr ⟨_, by omega, rfl⟩
    · exact .inl rfl
    · exact ih h

theorem lf_not_mem_hexDump (bytes : List Byte) : '\n' ∉ hexDump bytes := fun h => by
  rcases mem_hexDump h with hc | ⟨n, hn, hc⟩
  · cases hc
  · obtain ⟨-, -, hlf, -⟩ := hexDigit_spec hn
    exact hlf hc.symm

theorem hash_not_mem_hexDump (bytes : List Byte) : '#' ∉ hexDump bytes := fun h => by
  rcases mem_hexDump h with hc | ⟨n, hn, hc⟩
  · cases hc
  · obtain ⟨-, -, -, hhash⟩ := hexDigit_spec hn
    exact hhash hc.symm

theorem tokensFrom_hexDump (bytes : List Byte) : tokensFrom [] (hexDump bytes) = bytes.map byteToken := by
  induction bytes with
  | nil => rfl
  | cons b bytes ih =>
    obtain ⟨-, hhi, -⟩ := hexDigit_spec (n := b.toNat / 16) (by have := b.isLt; omega)
    obtain ⟨-, hlo, -⟩ := hexDigit_spec (n := b.toNat % 16) (by omega)
    have hspace : isBlank ' ' = true := rfl
    simp [hexDump, tokensFrom, hhi, hlo, hspace, pushToken, ih, byteToken]

/-- A dump is one line whose tokens are those of its bytes (R95, R97). -/
theorem textTokens_hexDump (bytes : List Byte) : textTokens (hexDump bytes) = bytes.map byteToken := by
  rw [textTokens, splitLines_of_no_lf (lf_not_mem_hexDump bytes), List.flatMap_singleton,
    stripComment_of_no_hash (hash_not_mem_hexDump bytes), tokensFrom_hexDump]

/-- Settles O52: the tokens of the dump are those of the bytes, each of which is well formed and gives its byte. -/
theorem hexDumpAssemblesBack : Obligations.HexDumpAssemblesBack := by
  intro bytes
  rw [assemble, textTokens_hexDump, tokenBytes_eq_ok_iff, List.map_map]
  exact List.map_congr_left fun b _ => tokenByte_byteToken b

end Sys2Proof.Machine

end

/-! PROOFS, the engine: the step is the pseudocode of R128 (O12), so a running machine always has a next state (O13), and the
step runs what was decoded (O9). -/

section

namespace Sys2Proof.Machine

open Sys2Proof

/-- The second half of the engine's fetch, after the opcode byte is decoded: the operand, read from `p` upward (R123 to
R126). -/
def engineOperand (s : State) (p : Nat) : Decoded → Except Cause (IR × Nat)
  | .halt => .ok (.halt, p)
  | .out => .ok (.out, p)
  | .cmp => .ok (.cmp, p)
  | .add => .ok (.add, p)
  | .sub => .ok (.sub, p)
  | .xor => .ok (.xor, p)
  | .aptr => do
    let operand ← memRead s p
    pure (.aptr operand, p + 1)
  | .jez => do
    let operand ← memRead4 s p
    pure (.jez operand, p + 4)
  | .jnz => do
    let operand ← memRead4 s p
    pure (.jnz operand, p + 4)
  | .mv dst src => do
    let (operand, q) ← engineReadByte s src p
    pure (.mv operand src dst, q)
  | .mv32 dst src => do
    let (operand, q) ← engineReadInt s src p
    pure (.mv32 operand src dst, q)

/-- The engine's fetch reads the opcode byte, decodes it, then reads the operand (R122 to R126). -/
theorem engineFetch_eq (s : State) : engineFetch s =
    memRead s s.pc.toNat >>= fun op => engineDecode op >>= engineOperand s (s.pc.toNat + 1) := rfl

/-- The engine's fetch from a byte at `Pc` that decodes is the reading of its operand (R122, R123). -/
theorem engineFetch_of_decode {s : State} {op : Byte} {d : Decoded} (hp : s.peek s.pc.toNat = some op)
    (hd : engineDecode op = .ok d) : engineFetch s = engineOperand s (s.pc.toNat + 1) d := by
  rw [engineFetch_eq, memRead_some hp]
  exact congrArg (· >>= engineOperand s (s.pc.toNat + 1)) hd

/-- The engine's fetch from a byte at `Pc` that does not decode takes the fault of the lookup (R83, R122). -/
theorem engineFetch_of_decode_fault {s : State} {op : Byte} {c : Cause} (hp : s.peek s.pc.toNat = some op)
    (hd : engineDecode op = .error c) : engineFetch s = .error c := by
  rw [engineFetch_eq, memRead_some hp]
  exact congrArg (· >>= engineOperand s (s.pc.toNat + 1)) hd

/-- A fault of the engine's fetch is the fault of its cycle (R128). -/
theorem engineCycle_of_fetch_error {s : State} {c : Cause} (h : engineFetch s = .error c) : engineCycle s = .error c := by
  rw [engineCycle, h]
  rfl

/-- A fetch of `len` bytes leaves `Pc` past them for execute, modulo 2^32 (R126, R128). -/
theorem engineCycle_of_fetch_ok {s : State} {ir : IR} {len : Nat} (h : engineFetch s = .ok (ir, s.pc.toNat + len)) :
    engineCycle s = engineExecute ir (s.advance len) := by
  have hpc : BitVec.ofNat 32 ((s.pc.toNat + len) % 4294967296) = s.pc + BitVec.ofNat 32 len := by
    apply BitVec.eq_of_toNat_eq
    simp
  rw [engineCycle, h]
  change engineExecute ir { s with pc := BitVec.ofNat 32 ((s.pc.toNat + len) % 4294967296) } = _
  rw [hpc]
  rfl

/-- A running engine completes its cycle or takes its fault (R128, R238). -/
theorem engineStep_of_running {s : State} (hs : s.status = .running) : engineStep s = complete s (engineCycle s) := by
  simp only [engineStep, hs]
  cases engineCycle s <;> rfl

/-! The engine's write sides over raw selectors are those of the model (R162, R182), its sums those of bit vectors. -/

theorem engineWriteByte_sel (dst : ByteDst) (v : Byte) (s : State) : engineWriteByte dst.sel v s = writeByte dst v s := by
  cases dst <;> rfl

theorem engineWriteInt_sel (dst : IntDst) (v : Word) (s : State) : engineWriteInt dst.sel v s = writeInt dst v s := by
  cases dst <;> rfl

theorem ofNat_add_mod (a b : Byte) : BitVec.ofNat 8 ((a.toNat + b.toNat) % 256) = a + b := by
  apply BitVec.eq_of_toNat_eq
  simp

theorem ofNat_sub_mod (a b : Byte) : BitVec.ofNat 8 ((a.toNat + 256 - b.toNat) % 256) = a - b := by
  apply BitVec.eq_of_toNat_eq
  simp [BitVec.toNat_sub]
  omega

theorem ofNat_add_byte_mod (a : Word) (b : Byte) :
    BitVec.ofNat 32 ((a.toNat + b.toNat) % 4294967296) = a + b.setWidth 32 := by
  apply BitVec.eq_of_toNat_eq
  simp

/-! One cycle of the engine on the bytes of an instruction. -/

section
variable {s : State} {op : Byte} (hp : s.peek s.pc.toNat = some op)
include hp

/-- An MV whose source the engine resolves is the rest of the move (R127, R160). -/
theorem complete_engineCycle_mv {dst : ByteDst} {src : Sel} {v : Byte} {n : Nat}
    (hd : engineDecode op = .ok (.mv dst.sel src))
    (hr : engineReadByte s src (s.pc.toNat + 1) = .ok (v, s.pc.toNat + n)) :
    complete s (engineCycle s) = moveByte n dst v s := by
  have hf : engineFetch s = .ok (.mv v src dst.sel, s.pc.toNat + n) := by
    rw [engineFetch_of_decode hp hd, engineOperand, hr]
    rfl
  rw [engineCycle_of_fetch_ok hf, engineExecute, engineWriteByte_sel]
  rfl

/-- An MV32 whose source the engine resolves is the rest of the move (R127, R180). -/
theorem complete_engineCycle_mv32 {dst : IntDst} {src : Sel} {v : Word} {n : Nat}
    (hd : engineDecode op = .ok (.mv32 dst.sel src))
    (hr : engineReadInt s src (s.pc.toNat + 1) = .ok (v, s.pc.toNat + n)) :
    complete s (engineCycle s) = moveInt n dst v s := by
  have hf : engineFetch s = .ok (.mv32 v src dst.sel, s.pc.toNat + n) := by
    rw [engineFetch_of_decode hp hd, engineOperand, hr]
    rfl
  rw [engineCycle_of_fetch_ok hf, engineExecute, engineWriteInt_sel]
  rfl

/-- The load form of MV: the engine's fetch takes the fault of the read, as the model's execution does (R161, R236). -/
theorem complete_engineCycle_mvInd {dst : ByteDst} (hd : engineDecode op = .ok (.mv dst.sel 7)) :
    complete s (engineCycle s) = execMvInd dst s := by
  have hread : engineReadByte s 7 (s.pc.toNat + 1) = (readIndirect s).map fun v => (v, s.pc.toNat + 1) := by
    change (memRead s s.effectiveAddr >>= _) = _
    rw [readIndirect]
    cases memRead s s.effectiveAddr <;> rfl
  unfold execMvInd
  cases hr : readIndirect s with
  | ok v => exact complete_engineCycle_mv hp hd (by rw [hread, hr]; rfl)
  | error c =>
    have hf : engineFetch s = .error c := by rw [engineFetch_of_decode hp hd, engineOperand, hread, hr]; rfl
    rw [engineCycle_of_fetch_error hf]
    rfl

end

/-- The engine's word read finds the four bytes of a word (R53, R54). -/
theorem memRead4_splitLe {s : State} {addr : Nat} {w : Word}
    (h : ∀ k b, (splitLe w)[k]? = some b → s.peek (addr + k) = some b) : memRead4 s addr = .ok w := by
  rw [memRead4_some (addr := addr) (h 0 _ rfl) (h 1 _ rfl) (h 2 _ rfl) (h 3 _ rfl), joinLe_extract]

/-- On the bytes of an instruction the engine's cycle is the instruction's execution (R122 to R128). -/
theorem complete_engineCycle_of_encoded {s : State} {i : Instr}
    (h : ∀ k b, (encode i)[k]? = some b → s.peek (s.pc.toNat + k) = some b) :
    complete s (engineCycle s) = exec i s := by
  obtain ⟨op, operands, he, -⟩ := encode_eq_opcode_cons i
  have hp : s.peek s.pc.toNat = some op := h 0 op (by rw [he]; rfl)
  have hd : engineDecode op = .ok (decodedOf i) := engineDecode_of_encode he
  have hf := engineFetch_of_decode hp hd
  have htail : ∀ k b, operands[k]? = some b → s.peek (s.pc.toNat + 1 + k) = some b := fun k b hk => by
    rw [Nat.add_assoc, Nat.add_comm 1 k]
    exact h (k + 1) b (by rw [he]; exact hk)
  cases i with
  | halt | out | cmp | xor => rw [engineCycle_of_fetch_ok hf]; rfl
  | add => rw [engineCycle_of_fetch_ok hf, engineExecute, ofNat_add_mod]; rfl
  | sub => rw [engineCycle_of_fetch_ok hf, engineExecute, ofNat_sub_mod]; rfl
  | aptr b =>
    cases he
    have hread : memRead s (s.pc.toNat + 1) = .ok b := memRead_some (htail 0 b rfl)
    rw [decodedOf, engineOperand, hread] at hf
    rw [engineCycle_of_fetch_ok (len := 2) hf, engineExecute, ofNat_add_byte_mod]
    rfl
  | jez w =>
    cases he
    rw [decodedOf, engineOperand, memRead4_splitLe htail] at hf
    rw [engineCycle_of_fetch_ok (len := 5) hf, engineExecute]
    by_cases hF : s.regF = 0#8 <;> simp [exec, execJez, branch, State.flagZero, hF]
  | jnz w =>
    cases he
    rw [decodedOf, engineOperand, memRead4_splitLe htail] at hf
    rw [engineCycle_of_fetch_ok (len := 5) hf, engineExecute]
    by_cases hF : s.regF = 0#8 <;> simp [exec, execJnz, branch, State.flagZero, hF]
  | mvImm dst b =>
    cases he
    have hread : memRead s (s.pc.toNat + 1) = .ok b := memRead_some (htail 0 b rfl)
    exact complete_engineCycle_mv (n := 2) hp hd (by simp [engineReadByte, hread])
  | mvA dst | mvB dst | mvC dst | mvD dst | mvE dst | mvF dst => exact complete_engineCycle_mv hp hd rfl
  | mvInd dst => exact complete_engineCycle_mvInd hp hd
  | mv32Imm dst w =>
    cases he
    exact complete_engineCycle_mv32 (n := 5) hp hd (by simp [engineReadInt, memRead4_splitLe htail])
  | mv32La dst | mv32Lb dst | mv32Lc dst | mv32LcAlias dst | mv32Ptr dst => exact complete_engineCycle_mv32 hp hd rfl
  | mv32Pc dst =>
    refine complete_engineCycle_mv32 hp hd ?_
    simp [engineReadInt, BitVec.ofNat_add]
  | mv32Src7 dst => rw [engineCycle_of_fetch_error hf]; rfl

/-! One cycle of the engine on bytes that hold no instruction. -/

/-- The engine's word read of fewer than four bytes raises the bounds fault of the first one missing (R54, decision D20). -/
theorem memRead4_of_short {s : State} {a : Nat} (h : (codeBytes s a 4).length < 4) :
    memRead4 s a = .error (.bounds (a + (codeBytes s a 4).length)) := by
  cases h0 : s.peek a with
  | none =>
    rw [codeBytes_none h0, memRead4, memRead_none h0]
    rfl
  | some b0 =>
    cases h1 : s.peek (a + 1) with
    | none =>
      rw [codeBytes_some h0, codeBytes_none h1, memRead4, memRead_some h0, memRead_none h1]
      rfl
    | some b1 =>
      cases h2 : s.peek (a + 2) with
      | none =>
        rw [codeBytes_some h0, codeBytes_some h1, codeBytes_none h2, memRead4, memRead_some h0, memRead_some h1,
          memRead_none h2]
        rfl
      | some b2 =>
        cases h3 : s.peek (a + 3) with
        | none =>
          rw [codeBytes_some h0, codeBytes_some h1, codeBytes_some h2, codeBytes_none h3, memRead4, memRead_some h0,
            memRead_some h1, memRead_some h2, memRead_none h3]
          rfl
        | some b3 => simp [codeBytes_some h0, codeBytes_some h1, codeBytes_some h2, codeBytes_some h3] at h

/-- The opcode bytes that call for one operand byte (R83, R87). -/
theorem engineDecode_of_imm8 {op : Byte} {mk : Byte → Instr} (h : opcodeShape op = some (.imm8 mk)) :
    engineDecode op = .ok .aptr ∨ engineDecode op = .ok (.mv (opDst op) 0) := by
  have key : ∀ op : Byte, (match opcodeShape op with
      | some (.imm8 _) => decide (engineDecode op = .ok .aptr ∨ engineDecode op = .ok (.mv (opDst op) 0))
      | _ => true) = true := by decide +kernel
  have hop := key op
  rw [h] at hop
  exact of_decide_eq_true hop

/-- The opcode bytes that call for four operand bytes (R83, R88). -/
theorem engineDecode_of_imm32 {op : Byte} {mk : Word → Instr} (h : opcodeShape op = some (.imm32 mk)) :
    engineDecode op = .ok .jez ∨ engineDecode op = .ok .jnz ∨ engineDecode op = .ok (.mv32 (opDst op) 0) := by
  have key : ∀ op : Byte, (match opcodeShape op with
      | some (.imm32 _) => decide (engineDecode op = .ok .jez ∨ engineDecode op = .ok .jnz ∨
          engineDecode op = .ok (.mv32 (opDst op) 0))
      | _ => true) = true := by decide +kernel
  have hop := key op
  rw [h] at hop
  exact of_decide_eq_true hop

/-- A missing operand byte is a fault of the engine's fetch (R54, R59). -/
theorem engineFetch_of_imm8 {s : State} {op : Byte} {mk : Byte → Instr} {c : Cause} (hp : s.peek s.pc.toNat = some op)
    (hshape : opcodeShape op = some (.imm8 mk)) (hr : memRead s (s.pc.toNat + 1) = .error c) :
    engineFetch s = .error c := by
  rcases engineDecode_of_imm8 hshape with hd | hd
  · rw [engineFetch_of_decode hp hd, engineOperand, hr]
    rfl
  · rw [engineFetch_of_decode hp hd]
    simp [engineOperand, engineReadByte, hr]

/-- A missing byte of an operand word is a fault of the engine's fetch (R54, R59). -/
theorem engineFetch_of_imm32 {s : State} {op : Byte} {mk : Word → Instr} {c : Cause} (hp : s.peek s.pc.toNat = some op)
    (hshape : opcodeShape op = some (.imm32 mk)) (hr : memRead4 s (s.pc.toNat + 1) = .error c) :
    engineFetch s = .error c := by
  rcases engineDecode_of_imm32 hshape with hd | hd | hd
  · rw [engineFetch_of_decode hp hd, engineOperand, hr]
    rfl
  · rw [engineFetch_of_decode hp hd, engineOperand, hr]
    rfl
  · rw [engineFetch_of_decode hp hd]
    simp [engineOperand, engineReadInt, hr]

/-- The cause that fetch at an address records when the bytes there hold no instruction (R231, R233). -/
def fetchCause (addr : Nat) : DecodeError → Cause
  | .unknownOpcode op => .decode op
  | .missingByte k => .bounds (addr + k)

/-- A running machine whose bytes at `Pc` do not decode takes the fault of its fetch (R238). -/
theorem step_of_decode_error {s : State} {e : DecodeError} (hs : s.status = .running)
    (hd : decode (codeBytes s s.pc.toNat 5) = .error e) : step s = .next (s.raise (fetchCause s.pc.toNat e)) := by
  rw [step_decode_error hs hd]
  cases e <;> rfl

/-- The engine takes the fault that the model's fetch takes of bytes that hold no instruction (R59, R122 to R124). -/
theorem engineFetch_of_decode_error {s : State} {e : DecodeError} (hd : decode (codeBytes s s.pc.toNat 5) = .error e) :
    engineFetch s = .error (fetchCause s.pc.toNat e) := by
  rcases decode_error_cases hd with ⟨hnil, rfl⟩ | ⟨op, rest, hcons, hnone, rfl⟩ | ⟨op, rest, shape, hcons, hs, rfl, hshort⟩
  · have hp : s.peek s.pc.toNat = none := by
      have hlast := peek_after_codeBytes (s := s) (a := s.pc.toNat) (n := 5) (by simp [hnil])
      rwa [hnil] at hlast
    rw [engineFetch_eq, memRead_none hp]
    rfl
  · have hp := peek_of_codeBytes_cons hcons
    exact engineFetch_of_decode_fault hp ((engineDecode_eq_error op).2 ((opcodeShape_eq_none op).1 hnone))
  · have hp := peek_of_codeBytes_cons hcons
    obtain rfl : codeBytes s (s.pc.toNat + 1) 4 = rest := by
      rw [codeBytes_some hp] at hcons
      exact (List.cons.inj hcons).2
    have haddr : s.pc.toNat + (codeBytes s s.pc.toNat 5).length =
        s.pc.toNat + 1 + (codeBytes s (s.pc.toNat + 1) 4).length := by
      rw [hcons, List.length_cons]
      omega
    rw [fetchCause, haddr]
    rcases hshort with ⟨mk, rfl, hlen⟩ | ⟨mk, rfl, hlen⟩
    · have hnone : s.peek (s.pc.toNat + 1 + (codeBytes s (s.pc.toNat + 1) 4).length) = none :=
        peek_after_codeBytes (by omega)
      have hzero : (codeBytes s (s.pc.toNat + 1) 4).length = 0 := by omega
      rw [hzero] at hnone ⊢
      exact engineFetch_of_imm8 hp hs (memRead_none hnone)
    · exact engineFetch_of_imm32 hp hs (memRead4_of_short hlen)

/-- The step of a running machine is its execution of what the bytes at `Pc` decode to (R120, R127). -/
theorem step_of_decode {s : State} {i : Instr} {rest : List Byte} (hs : s.status = .running)
    (hd : decode (codeBytes s s.pc.toNat 5) = .ok (i, rest)) : step s = exec i s := by
  simp [step, fetch, hs, hd]

theorem step_of_halted {s : State} (hs : s.status = .halted) : step s = .refused .stepWhenHalted := by
  simp [step, hs]

theorem step_of_faulted {s : State} {r : FaultRecord} (hs : s.status = .faulted r) :
    step s = .refused .stepWhenFaulted := by
  simp [step, hs]

/-- The bytes a fetch decoded stand in memory from `Pc` upward (R80). -/
theorem peek_of_decode {s : State} {i : Instr} {rest : List Byte}
    (hd : decode (codeBytes s s.pc.toNat 5) = .ok (i, rest)) (k : Nat) (b : Byte) (hk : (encode i)[k]? = some b) :
    s.peek (s.pc.toNat + k) = some b := by
  have hlt : k < (encode i).length := (List.getElem?_eq_some_iff.1 hk).1
  apply codeBytes_peek (n := 5)
  rw [encode_of_decode hd, List.getElem?_append_left hlt]
  exact hk

/-- Settles O9: fetch answers what was decoded, and `step` runs it. -/
theorem stepRunsDecodedInstruction : Obligations.StepRunsDecodedInstruction := fun _ _ _ => step_of_decode

/-- Settles O12: the bytes at `Pc` hold an instruction, which the engine fetches and executes as `exec` does, or they hold
none, and both fetches take the same fault. -/
theorem stepRefinesEngine : Obligations.StepRefinesEngine := by
  intro s
  cases hs : s.status with
  | running =>
    rw [engineStep_of_running hs]
    cases hd : decode (codeBytes s s.pc.toNat 5) with
    | ok answer =>
      obtain ⟨i, rest⟩ := answer
      rw [step_of_decode hs hd, complete_engineCycle_of_encoded (peek_of_decode hd)]
    | error e =>
      rw [step_of_decode_error hs hd, engineCycle_of_fetch_error (engineFetch_of_decode_error hd)]
      rfl
  | halted => simp [step_of_halted hs, engineStep, hs]
  | faulted r => simp [step_of_faulted hs, engineStep, hs]

/-- A running machine always has a next state: the engine's cycle completes or its fault is taken (R121, R238). -/
theorem step_of_running {s : State} (hs : s.status = .running) : ∃ t, step s = .next t := by
  rw [stepRefinesEngine s, engineStep_of_running hs]
  cases engineCycle s with
  | ok t => exact ⟨t, rfl⟩
  | error c => exact ⟨s.raise c, rfl⟩

/-- Settles O13: in Running by the engine's cycle, which always ends; outside it by the test of the status. -/
theorem onlyRunningMachinesStep : Obligations.OnlyRunningMachinesStep :=
  ⟨fun _ => step_of_running, fun _ => step_of_halted, fun _ _ => step_of_faulted⟩

end Sys2Proof.Machine

end

/-! PROOFS, the run loop: `Run` is repeated `Step` (O46), can be continued (O47), ends at a fault (O48), and takes no step of
a stopped machine (O49). -/

section

namespace Sys2Proof.Machine

open Sys2Proof

/-! The host's own repeated step, for every machine behind the host's interface and then for this one. -/

/-- Repeated steps of a machine begin with its next state. -/
theorem hostRun_succ_of_next {M : Host.Core} {n : Nat} {s u : M.State} (h : M.step s = .next u) :
    M.run (n + 1) s = M.run n u := by
  rw [Host.Core.run, h]

/-- Repeated steps that reach a state begin with one that has a next state. -/
theorem exists_next_of_hostRun_succ {M : Host.Core} {n : Nat} {s t : M.State} (h : M.run (n + 1) s = .next t) :
    ∃ u, M.step s = .next u ∧ M.run n u = .next t := by
  rw [Host.Core.run] at h
  cases hstep : M.step s with
  | next u => exact ⟨u, rfl, by rwa [hstep] at h⟩
  | fault r => rw [hstep] at h; cases h
  | refused r => rw [hstep] at h; cases h

theorem coreRun_zero (s : State) : Host.Core.run core 0 s = .next s := rfl

theorem coreRun_succ {n : Nat} {s u : State} (h : step s = .next u) :
    Host.Core.run core (n + 1) s = Host.Core.run core n u :=
  hostRun_succ_of_next (M := core) h

theorem coreRun_succ_eq_next {n : Nat} {s t : State} (h : Host.Core.run core (n + 1) s = .next t) :
    ∃ u, step s = .next u ∧ Host.Core.run core n u = .next t :=
  exists_next_of_hostRun_succ (M := core) h

/-- A fault is the last of the steps that reach a state: the machine it leaves has no next state (R240). -/
theorem coreRun_of_faulted {n : Nat} {s t : State} {r : FaultRecord} (hs : s.status = .faulted r)
    (h : Host.Core.run core n s = .next t) : t = s := by
  cases n with
  | zero => cases h; rfl
  | succ n =>
    obtain ⟨u, hu, -⟩ := coreRun_succ_eq_next h
    rw [step_of_faulted hs] at hu
    cases hu

/-- A run takes a step that does not fault and goes on with one less (R130). -/
theorem run_succ_of_unfaulted {n : Nat} {s u : State} (h : step s = .next u) (hu : u.unfaulted) :
    run (n + 1) s = run n u :=
  run_succ_returned (step_effect h).1 (stepRequest_returned h hu)

/-- A run whose next step faults ends there (R136). -/
theorem run_succ_of_faulted {n : Nat} {s t : State} {r : FaultRecord} (h : step s = .next t)
    (ht : t.status = .faulted r) : run (n + 1) s = .raised r t :=
  run_succ_raised (step_effect h).1 (stepRequest_raised h ht)

/-- A run goes on from any unfaulted state that its first steps reach (R131, R132). -/
theorem run_add {a b : Nat} {s t : State} (h : Host.Core.run core a s = .next t) (ht : t.unfaulted) :
    run (a + b) s = run b t := by
  induction a generalizing s with
  | zero => cases h; rw [Nat.zero_add]
  | succ a ih =>
    obtain ⟨u, hstep, hrest⟩ := coreRun_succ_eq_next h
    have hu : u.unfaulted := fun r hr => ht r (by rw [coreRun_of_faulted hr hrest]; exact hr)
    rw [Nat.add_right_comm, run_succ_of_unfaulted hstep hu, ih hrest]

theorem State.unfaulted_of_running {s : State} (h : s.status = .running) : s.unfaulted := fun r hr => by
  rw [h] at hr; cases hr

theorem State.unfaulted_of_halted {s : State} (h : s.status = .halted) : s.unfaulted := fun r hr => by
  rw [h] at hr; cases hr

/-- The ways a run with budget `n` can end, in steps of the machine (R130, R131, R134, R136). -/
inductive RunEnds (n : Nat) (s : State) : Reply Bool → Prop
  | budget {t : State} (h : Host.Core.run core n s = .next t) (ht : t.status = .running) : RunEnds n s (.returned false t)
  | halt {k : Nat} {t : State} (hk : k ≤ n) (h : Host.Core.run core k s = .next t) (ht : t.status = .halted) :
    RunEnds n s (.returned true t)
  | fault {k : Nat} {u t : State} {r : FaultRecord} (hk : k < n) (h : Host.Core.run core k s = .next u)
    (hu : u.status = .running) (hstep : step u = .next t) (ht : t.status = .faulted r) : RunEnds n s (.raised r t)
  | refused {r : FaultRecord} (hs : s.status = .faulted r) : RunEnds n s (.refused .stepWhenFaulted)

/-- One step more at the beginning of a run. -/
theorem RunEnds.cons {n : Nat} {s u : State} {q : Reply Bool} (hstep : step s = .next u) (hu : u.unfaulted)
    (h : RunEnds n u q) : RunEnds (n + 1) s q := by
  cases h with
  | budget h ht => exact .budget ((coreRun_succ hstep).trans h) ht
  | halt hk h ht => exact .halt (Nat.succ_le_succ hk) ((coreRun_succ hstep).trans h) ht
  | fault hk h hv hlast ht => exact .fault (Nat.succ_lt_succ hk) ((coreRun_succ hstep).trans h) hv hlast ht
  | refused hr => exact absurd hr (hu _)

/-- Every run ends in one of these ways. -/
theorem run_ends (n : Nat) (s : State) : RunEnds n s (run n s) := by
  induction n generalizing s with
  | zero =>
    cases hs : s.status with
    | running => rw [run_zero hs]; exact .budget (coreRun_zero s) hs
    | halted => rw [run_of_halted hs]; exact .halt (Nat.le_refl _) (coreRun_zero s) hs
    | faulted r => rw [run_of_faulted hs]; exact .refused hs
  | succ n ih =>
    cases hs : s.status with
    | running =>
      obtain ⟨u, hstep⟩ := step_of_running hs
      by_cases hu : u.unfaulted
      · rw [run_succ_of_unfaulted hstep hu]
        exact (ih u).cons hstep hu
      · obtain ⟨r, hr⟩ := not_forall_not.1 hu
        rw [run_succ_of_faulted hstep hr]
        exact .fault (Nat.succ_pos n) (coreRun_zero s) hs hstep hr
    | halted => rw [run_of_halted hs]; exact .halt (Nat.zero_le _) (coreRun_zero s) hs
    | faulted r => rw [run_of_faulted hs]; exact .refused hs

/-- A run returns false exactly when all its steps lead to a running machine (R131). -/
theorem run_eq_false_iff {n : Nat} {s t : State} :
    run n s = .returned false t ↔ Host.Core.run core n s = .next t ∧ t.status = .running := by
  refine ⟨fun h => ?_, fun ⟨h, ht⟩ => ?_⟩
  · have hends := run_ends n s
    rw [h] at hends
    cases hends with
    | budget h ht => exact ⟨h, ht⟩
  · exact (run_add (b := 0) h (State.unfaulted_of_running ht)).trans (run_zero ht)

/-- A run returns true exactly when some of its steps lead to a halted machine (R131). -/
theorem run_eq_true_iff {n : Nat} {s t : State} :
    run n s = .returned true t ↔ ∃ k, k ≤ n ∧ Host.Core.run core k s = .next t ∧ t.status = .halted := by
  refine ⟨fun h => ?_, fun ⟨k, hk, h, ht⟩ => ?_⟩
  · have hends := run_ends n s
    rw [h] at hends
    cases hends with
    | halt hk h ht => exact ⟨_, hk, h, ht⟩
  · obtain ⟨b, rfl⟩ := Nat.exists_eq_add_of_le hk
    exact (run_add h (State.unfaulted_of_halted ht)).trans (run_of_halted ht)

/-- Settles O46: how a run ends gives one direction, that it goes on after its first steps the other. -/
theorem runIsRepeatedStep : Obligations.RunIsRepeatedStep := fun _ _ _ =>
  ⟨fun _ => run_eq_false_iff, fun _ => run_eq_true_iff⟩

/-- Settles O47: the first run's steps lead to a running machine, from which the longer run goes on. -/
theorem runContinuesAfterBudget : Obligations.RunContinuesAfterBudget := by
  intro a b s t h
  obtain ⟨hsteps, ht⟩ := run_eq_false_iff.1 h
  exact ⟨ht, run_add hsteps (State.unfaulted_of_running ht)⟩

/-- Settles O48: as O46, with the faulting step as the one the run takes last. -/
theorem runEndsAtFault : Obligations.RunEndsAtFault := by
  intro n s t r
  refine ⟨fun h => ?_, fun ⟨k, u, hk, h, hu, hstep, ht⟩ => ?_⟩
  · have hends := run_ends n s
    rw [h] at hends
    cases hends with
    | fault hk h hu hstep ht => exact ⟨_, _, hk, h, hu, hstep, ht⟩
  · obtain ⟨b, rfl⟩ := Nat.exists_eq_add_of_lt hk
    rw [Nat.add_assoc, run_add h (State.unfaulted_of_running hu), run_succ_of_faulted hstep ht]

/-- Settles O49: `Run` tests the status before the budget. -/
theorem runOnStoppedMachine : Obligations.RunOnStoppedMachine :=
  ⟨fun _ _ => run_of_halted, fun _ _ _ => run_of_faulted⟩

end Sys2Proof.Machine

end

/-! PROOFS, the rule of every one-byte instruction from its encoding and its effect, and with it HALT (O18) and OUT (O19). -/

section

namespace Sys2Proof.Machine

open Sys2Proof

/-- An instruction whose encoding is its opcode byte runs where that byte stands at `Pc` (R82, R122 to R128). -/
theorem step_of_oneByte {s : State} {op : Byte} {i : Instr} (hi : encode i = [op]) (hs : s.status = .running)
    (hp : s.peek s.pc.toNat = some op) : step s = exec i s := by
  refine step_of_encoded hs fun j b hj => ?_
  rw [hi, List.getElem?_singleton] at hj
  split at hj
  · rename_i hzero
    rw [hzero, Nat.add_zero, hp, hj]
  · cases hj

/-- The whole rule of a one-byte instruction follows from its encoding and its effect: which step runs it, and the fault of
the opcode fetch, depend on nothing else (R82, R237). -/
theorem oneByteRule_of_exec {op : Byte} {i : Instr} {effect : State → State} (hi : encode i = [op])
    (hexec : ∀ s, exec i s = .next (effect s)) : oneByteRule op i effect :=
  ⟨hi, fun s => ⟨hexec s, fun hs =>
    ⟨fun hp => (step_of_oneByte hi hs hp).trans (hexec s),
      fun hm => missingByteRaisesBoundsFault s 0 hs hm (.inl rfl)⟩⟩⟩

/-- HALT's effect, field by field (R140). -/
theorem exec_halt (s : State) : exec .halt s = .next { s with pc := s.pc + 1, status := .halted } := rfl

/-- OUT's effect, field by field (R141). -/
theorem exec_out (s : State) : exec .out s = .next { s with pc := s.pc + 1, out := s.out ++ [s.regA] } := rfl

/-- Settles O18: HALT's effect gives the rule and the status after it, at which a step and a run only test the status; that
Halted is reached on no other byte is O14. -/
theorem haltStopsTheMachine : Obligations.HaltStopsTheMachine := by
  refine ⟨oneByteRule_of_exec rfl exec_halt, fun s t h => ?_, fun s t hstep ht => ?_⟩
  · obtain rfl := Host.Outcome.next.inj ((exec_halt s).symm.trans h)
    exact ⟨step_of_halted rfl, fun _ => run_of_halted rfl⟩
  · obtain ⟨-, hhalted⟩ := onlyHaltHalts.2 s t hstep
    exact hhalted.1 ht

/-- Settles O19: the rule of a one-byte instruction, with OUT's effect. -/
theorem outAppendsA : Obligations.OutAppendsA := oneByteRule_of_exec rfl exec_out

end Sys2Proof.Machine

end

/-! PROOFS, the branches: the step of an instruction with a four-byte operand, the whole rule of a branch from its opcode byte
and its effect, and with it JEZ (O20), JNZ (O21) and a branch after CMP (O27). -/

section

namespace Sys2Proof.Machine

open Sys2Proof

/-- An opcode byte with its four operand bytes at `Pc` runs the instruction of the word they join to (R53, R88). -/
theorem step_of_imm32 {s : State} {op b0 b1 b2 b3 : Byte} {mk : Word → Instr}
    (hop : opcodeShape op = some (.imm32 mk)) (hs : s.status = .running) (hp : s.peek s.pc.toNat = some op)
    (h0 : s.peek (s.pc.toNat + 1) = some b0) (h1 : s.peek (s.pc.toNat + 2) = some b1)
    (h2 : s.peek (s.pc.toNat + 3) = some b2) (h3 : s.peek (s.pc.toNat + 4) = some b3) :
    step s = exec (mk (joinLe b0 b1 b2 b3)) s := by
  have hbytes : codeBytes s s.pc.toNat 5 = [op, b0, b1, b2, b3] := by
    rw [codeBytes_some hp, codeBytes_some h0, codeBytes_some h1, codeBytes_some h2, codeBytes_some h3, codeBytes_zero]
  refine step_of_decode (rest := []) hs ?_
  rw [hbytes, decode_cons hop]
  rfl

/-- The first missing one of an opcode byte and its four operand bytes raises the bounds fault of its address (R54, R59). -/
theorem step_of_imm32_missing {s : State} {op : Byte} {mk : Word → Instr} {k : Nat}
    (hop : opcodeShape op = some (.imm32 mk)) (hs : s.status = .running) (hk : k < 5) (hm : firstMissing s k)
    (hp : k = 0 ∨ s.peek s.pc.toNat = some op) : step s = .next (s.raise (.bounds (s.pc.toNat + k))) :=
  missingByteRaisesBoundsFault s k hs hm (hp.imp_right fun hp => ⟨op, 5, hp, opcodeLength_of_imm32 hop, hk⟩)

/-- With `Pc` outside memory the opcode fetch faults there (R122, R233). -/
theorem step_of_pc_outside {s : State} (hs : s.status = .running) (hpc : s.cfg.memSize ≤ s.pc.toNat) :
    step s = .next (s.raise (.bounds s.pc.toNat)) :=
  missingByteRaisesBoundsFault s 0 hs ⟨State.peek_eq_none.2 hpc, fun j hj => absurd hj (Nat.not_lt_zero j)⟩ (.inl rfl)

/-- The whole rule of a branch, as R150 and R151 both give it: where `Pc` goes, the step that runs it, the fault of each
missing byte, and the fault at a target outside memory. -/
def BranchRule (op : Byte) (mk : Word → Instr) (taken : State → Prop) [DecidablePred taken] : Prop :=
  (∀ (a : Word) (s : State), exec (mk a) s = .next { s with pc := if taken s then a else s.pc + 5 }) ∧
  ∀ s : State, s.status = .running →
    (∀ b0 b1 b2 b3 : Byte, s.peek s.pc.toNat = some op → s.peek (s.pc.toNat + 1) = some b0 →
      s.peek (s.pc.toNat + 2) = some b1 → s.peek (s.pc.toNat + 3) = some b2 → s.peek (s.pc.toNat + 4) = some b3 →
      step s = .next { s with pc := if taken s then joinLe b0 b1 b2 b3 else s.pc + 5 }) ∧
    (∀ k, k < 5 → firstMissing s k → (k = 0 ∨ s.peek s.pc.toNat = some op) →
      step s = .next (s.raise (.bounds (s.pc.toNat + k)))) ∧
    (∀ a : Word, taken s → s.cfg.memSize ≤ a.toNat → ∃ t, exec (mk a) s = .next t ∧
      step t = .next { t with status := .faulted { cause := .bounds a.toNat, pc0 := a } })

/-- The rule of a branch follows from its opcode byte and its effect: fetch does not ask whether the branch is taken, and a
taken branch leaves a running machine with `Pc` at the target (R150, R151). -/
theorem branchRule_of_exec {op : Byte} {mk : Word → Instr} {taken : State → Prop} [DecidablePred taken]
    (hop : opcodeShape op = some (.imm32 mk))
    (hexec : ∀ a s, exec (mk a) s = .next { s with pc := if taken s then a else s.pc + 5 }) :
    BranchRule op mk taken := by
  refine ⟨hexec, fun s hs => ⟨fun b0 b1 b2 b3 hp h0 h1 h2 h3 => ?fetched, fun k hk hm hp => ?missing,
    fun a htaken hout => ?outside⟩⟩
  case fetched => exact (step_of_imm32 hop hs hp h0 h1 h2 h3).trans (hexec _ s)
  case missing => exact step_of_imm32_missing hop hs hk hm hp
  case outside =>
    have htarget : exec (mk a) s = .next { s with pc := a } := by rw [hexec, if_pos htaken]
    exact ⟨_, htarget, step_of_pc_outside hs hout⟩

/-- What both branches share, field by field: `Pc` is the target or the next instruction (R150, R151). -/
theorem branch_eq (taken : Bool) (target : Word) (s : State) :
    branch taken target s = .next { s with pc := if taken then target else s.pc + 5 } := by
  cases taken <;> rfl

/-- JEZ's effect, field by field (R150). -/
theorem exec_jez (a : Word) (s : State) :
    exec (.jez a) s = .next { s with pc := if s.regF = 0x00 then a else s.pc + 5 } := by
  have hbranch : exec (.jez a) s = branch s.flagZero a s := rfl
  simp only [hbranch, branch_eq, flagZero_eq_true]

/-- JNZ's effect, field by field (R151). -/
theorem exec_jnz (a : Word) (s : State) :
    exec (.jnz a) s = .next { s with pc := if s.regF ≠ 0x00 then a else s.pc + 5 } := by
  have hbranch : exec (.jnz a) s = branch (!s.flagZero) a s := rfl
  simp only [hbranch, branch_eq, Bool.not_eq_true', ← Bool.not_eq_true, flagZero_eq_true, ne_eq]

/-- CMP's effect, field by field (R200). -/
theorem exec_cmp (s : State) :
    exec .cmp s = .next { s with pc := s.pc + 1, regF := if s.regA = s.regB then 0x00 else 0x01 } := rfl

/-- Settles O20: the rule of a branch, taken when `F` is zero. -/
theorem jezJumpsWhenFIsZero : Obligations.JezJumpsWhenFIsZero :=
  branchRule_of_exec (taken := fun s => s.regF = 0x00) rfl exec_jez

/-- Settles O21: the rule of a branch, taken when `F` is not zero. -/
theorem jnzJumpsWhenFIsNotZero : Obligations.JnzJumpsWhenFIsNotZero :=
  branchRule_of_exec (taken := fun s => s.regF ≠ 0x00) rfl exec_jnz

/-- Settles O27: CMP leaves 0 in `F` for equal operands and 1 for unequal ones, and each branch tests that value. -/
theorem cmpThenBranch : Obligations.CmpThenBranch := by
  intro s a
  refine ⟨_, exec_cmp s, fun heq => ?equal, fun hne => ?unequal⟩
  case equal => simp [exec_jez, exec_jnz, heq]
  case unequal => simp [exec_jez, exec_jnz, hne]

end Sys2Proof.Machine

end

/-! PROOFS, MV to a register (O28), its load form (O29), its indirect form onto itself (O31), and its destination 0 (O32). -/

section

namespace Sys2Proof.Machine

open Sys2Proof

/-- What `run` does at each of the six register destinations: the register takes `v`, `Pc` moves by `len`, and nothing else
changes (R160, R162, decision D5). -/
def MovesToRegisters (run : ByteDst → Host.Outcome State Fault Refusal) (s : State) (v : Byte) (len : Word) : Prop :=
  run .a = .next { s with pc := s.pc + len, regA := v } ∧
  run .b = .next { s with pc := s.pc + len, regB := v } ∧
  run .c = .next { s with pc := s.pc + len, regC := v } ∧
  run .d = .next { s with pc := s.pc + len, regD := v } ∧
  run .e = .next { s with pc := s.pc + len, regE := v } ∧
  run .f = .next { s with pc := s.pc + len, regF := v }

/-- The rest of an MV writes the register its destination names (R162). -/
theorem moveByte_movesToRegisters (len : Nat) (v : Byte) (s : State) :
    MovesToRegisters (fun dst => moveByte len dst v s) s v (BitVec.ofNat 32 len) :=
  ⟨rfl, rfl, rfl, rfl, rfl, rfl⟩

/-- An MV whose source resolves to `v` moves it to the registers (R160). -/
theorem movesToRegisters_of_eq_moveByte {run : ByteDst → Host.Outcome State Fault Refusal} {len : Nat} {v : Byte} {s : State}
    (h : ∀ dst, run dst = moveByte len dst v s) : MovesToRegisters run s v (BitVec.ofNat 32 len) := by
  rw [funext h]
  exact moveByte_movesToRegisters len v s

/-- The load form of MV outside memory raises for its read, whatever its destination (R161, R236). -/
theorem execMvInd_error {s : State} (dst : ByteDst) (h : s.cfg.memSize ≤ s.effectiveAddr) :
    execMvInd dst s = .next (s.raise (.bounds s.effectiveAddr)) := by
  rw [execMvInd, readIndirect, memRead_none (State.peek_eq_none.2 h)]

/-- A legal configuration has at most 2^32 bytes of memory (R7). -/
theorem memSize_le_of_config_wf {k : Config} (h : k.wf = true) : k.memSize ≤ 4294967296 := of_decide_eq_true h

/-- Settles O31: the byte stored is the byte read at the same address, and writing it back leaves canonical memory as it is. -/
theorem mvIndirectToItself : Obligations.MvIndirectToItself := by
  intro s hwf hb
  calc exec (.mvInd .indirect) s
      = moveByte 1 .indirect (Memory.read s.mem s.effectiveAddr) s := execMvInd_ok .indirect hb
    _ = .next { s.advance 1 with mem := Memory.write s.mem s.effectiveAddr (Memory.read s.mem s.effectiveAddr) } :=
        moveByte_indirect_ok 1 _ hb
    _ = .next { s with pc := s.pc + 1 } := by rw [Memory.write_read_self hwf]; rfl

/-- Settles O28: each of the seven sources resolves without a fault, and the rest of the move writes the register. -/
theorem mvToRegister : Obligations.MvToRegister := by
  intro s imm8 row hrow
  obtain ⟨len, hlen, hexec⟩ := exec_mvPlainSource hrow
  rw [hlen]
  exact movesToRegisters_of_eq_moveByte hexec

/-- Settles O29: a byte at `Ptr + C` is moved to the register; with none there the read raises before the destination is looked
at, and a sum of 2^32 or more is past the largest legal memory. -/
theorem mvLoadsByteAtPtrPlusC : Obligations.MvLoadsByteAtPtrPlusC := by
  refine ⟨fun s v hv => ?loaded, fun s dst hnone => ?outside, fun s dst hcfg hsum => ?unwrapped⟩
  case loaded =>
    obtain ⟨hb, rfl⟩ := State.peek_eq_some.1 hv
    exact movesToRegisters_of_eq_moveByte fun dst => execMvInd_ok dst hb
  case outside => exact execMvInd_error dst (State.peek_eq_none.1 hnone)
  case unwrapped => exact execMvInd_error dst ((memSize_le_of_config_wf hcfg).trans hsum)

/-- Settles O32: destination 0 cannot be written, and the source, the indirect one inside memory too, resolves first. -/
theorem mvToSelectorZeroFaults : Obligations.MvToSelectorZeroFaults := by
  refine ⟨fun s imm8 row hrow => ?plain, fun s hb => ?indirect⟩
  case plain =>
    obtain ⟨len, -, hexec⟩ := exec_mvPlainSource hrow
    exact (hexec .immediate).trans (moveByte_of_not_writable rfl len row.2.1 s)
  case indirect => exact (execMvInd_ok .immediate hb).trans (moveByte_of_not_writable rfl 1 _ s)

end Sys2Proof.Machine

end

/-! PROOFS, MV32 with source 7 (O34), to a register (O33), and to the destinations 0 and 7 (O35). -/

section

namespace Sys2Proof

/-- An opcode byte whose top bits are 10 is an MV32 opcode (R81, R86). -/
theorem mv32Opcode_of_opTop {op : Byte} (h : opTop op = 0b10) : mv32Opcode (intDstOf (opDst op)) (opSrc op) = op :=
  have hmask : ∀ b : Byte, opTop b = 0b10 → b &&& 0xC0 = 0x80 := by decide
  mv32Opcode_fields op (hmask op h)

/-- The eight opcode bytes of MV32 with source 7 are each the whole encoding of that row for their destination (R82, R86). -/
theorem encode_mv32Src7_of_fields {op : Byte} (htop : opTop op = 0b10) (hsrc : opSrc op = 7) :
    encode (.mv32Src7 (intDstOf (opDst op))) = [op] := by
  have hop := mv32Opcode_of_opTop htop
  rw [hsrc] at hop
  exact congrArg (fun b => [b]) hop

end Sys2Proof

namespace Sys2Proof.Machine

open Sys2Proof

/-- MV32 with source 7 raises before its destination is looked at (R180, R181). -/
theorem exec_mv32Src7 (s : State) (dst : IntDst) :
    exec (.mv32Src7 dst) s = .next (s.raise (.addressing .intRead 7)) := rfl

/-- An MV32 from a valid source is the rest of a move of the source's value (R180, R181). -/
theorem exec_mv32Source {s : State} {imm32 : Word} {row : (IntDst → Instr) × Word × Word}
    (hrow : row ∈ mv32Sources s imm32) :
    ∃ len, row.2.2 = BitVec.ofNat 32 len ∧ ∀ dst, exec (row.1 dst) s = moveInt len dst row.2.1 s := by
  simp only [mv32Sources, List.mem_cons, List.not_mem_nil, or_false] at hrow
  rcases hrow with rfl | rfl | rfl | rfl | rfl | rfl | rfl
  · exact ⟨5, rfl, fun _ => rfl⟩
  all_goals exact ⟨1, rfl, fun _ => rfl⟩

/-- MV32 to `Pc` is a jump: the value written replaces the advance (R183). -/
theorem moveInt_pc (len : Nat) (v : Word) (s : State) : moveInt len .pc v s = .next { s with pc := v } := rfl

/-- MV32 to destination selector 0 raises (R182, decision D6). -/
theorem moveInt_immediate (len : Nat) (v : Word) (s : State) :
    moveInt len .immediate v s = .next (s.raise (.addressing .intWrite 0)) := rfl

/-- MV32 to destination selector 7 raises (R182). -/
theorem moveInt_indirect (len : Nat) (v : Word) (s : State) :
    moveInt len .indirect v s = .next (s.raise (.addressing .intWrite 7)) := rfl

/-- Settles O34: an opcode byte with these fields is the whole encoding of the row with source 7, so the step runs that row. -/
theorem mv32SourceSevenFaults : Obligations.Mv32SourceSevenFaults := by
  refine ⟨exec_mv32Src7, fun s op hs hp htop hsrc => ?_⟩
  have hi : encode (.mv32Src7 (intDstOf (opDst op))) = [op] := encode_mv32Src7_of_fields htop hsrc
  exact (step_of_oneByte hi hs hp).trans (exec_mv32Src7 s _)

/-- Settles O33: each of the seven sources resolves without a fault, and the rest of the move writes what its destination
names, which for destination 4 is the configuration's register. -/
theorem mv32ToRegister : Obligations.Mv32ToRegister := by
  intro s imm32 row hrow
  obtain ⟨len, hlen, hexec⟩ := exec_mv32Source hrow
  rw [hlen]
  simp only [hexec]
  exact ⟨rfl, rfl, rfl, moveInt_l4_of_lc len row.2.1, moveInt_l4_of_ld len row.2.1, rfl, moveInt_pc len row.2.1 s⟩

/-- Settles O35: each of the seven sources resolves without a fault, and the write of the destination raises. -/
theorem mv32InvalidDestinationFaults : Obligations.Mv32InvalidDestinationFaults := by
  intro s imm32 row hrow
  obtain ⟨len, -, hexec⟩ := exec_mv32Source hrow
  exact ⟨(hexec .immediate).trans (moveInt_immediate len _ s), (hexec .indirect).trans (moveInt_indirect len _ s)⟩

end Sys2Proof.Machine

end

/-! PROOFS, the arithmetic and logic instructions: the effect of ADD, SUB and XOR in the arithmetic of their rules, and with the
rule of every one-byte instruction CMP (O22), ADD (O23), SUB (O24) and XOR (O25). -/

section

namespace Sys2Proof.Machine

open Sys2Proof

/-- ADD's effect, field by field: the model's bit-vector sum is the sum modulo 256 of the two values (R201, R204). -/
theorem exec_add (s : State) : exec .add s =
    .next { s with pc := s.pc + 1, regA := BitVec.ofNat 8 ((s.regA.toNat + s.regB.toNat) % 256) } := by
  rw [ofNat_add_mod]
  rfl

/-- SUB's effect, field by field: the model's bit-vector difference is the difference modulo 256 of the two values (R202, R204). -/
theorem exec_sub (s : State) : exec .sub s =
    .next { s with pc := s.pc + 1, regA := BitVec.ofNat 8 ((s.regA.toNat + 256 - s.regB.toNat) % 256) } := by
  rw [ofNat_sub_mod]
  rfl

/-- XOR's effect, field by field (R203). -/
theorem exec_xor (s : State) : exec .xor s = .next { s with pc := s.pc + 1, regA := s.regA ^^^ s.regB } := rfl

/-- Settles O22: the rule of a one-byte instruction, with CMP's effect. -/
theorem cmpWritesInequalityToF : Obligations.CmpWritesInequalityToF := oneByteRule_of_exec rfl exec_cmp

/-- Settles O23: the rule of a one-byte instruction, with ADD's effect. -/
theorem addWrapsModulo256 : Obligations.AddWrapsModulo256 := oneByteRule_of_exec rfl exec_add

/-- Settles O24: the rule of a one-byte instruction, with SUB's effect. -/
theorem subWrapsModulo256 : Obligations.SubWrapsModulo256 := oneByteRule_of_exec rfl exec_sub

/-- Settles O25: the rule of a one-byte instruction, with XOR's effect, whose new `A` is read bit by bit. -/
theorem xorIsBitwise : Obligations.XorIsBitwise := by
  refine ⟨oneByteRule_of_exec rfl exec_xor, fun s t h k => ?_⟩
  obtain rfl := Host.Outcome.next.inj ((exec_xor s).symm.trans h)
  exact BitVec.getLsbD_xor

end Sys2Proof.Machine

end

/-! PROOFS, APTR (O26): the step of an instruction with a one-byte operand, and APTR's effect in the arithmetic of its rule. -/

section

namespace Sys2Proof.Machine

open Sys2Proof

/-- An opcode byte with its operand byte at `Pc` runs the instruction of that byte (R87, R122 to R128). -/
theorem step_of_imm8 {s : State} {op b : Byte} {mk : Byte → Instr} (hop : opcodeShape op = some (.imm8 mk))
    (hs : s.status = .running) (hp : s.peek s.pc.toNat = some op) (hb : s.peek (s.pc.toNat + 1) = some b) :
    step s = exec (mk b) s := by
  refine step_of_encoded hs fun j c hj => ?_
  rw [opcodeShape_imm8 hop] at hj
  match j with
  | 0 => exact hp.trans hj
  | 1 => exact hb.trans hj
  | _ + 2 => cases hj

/-- The first missing one of an opcode byte and its operand byte raises the bounds fault of its address (R54, R59). -/
theorem step_of_imm8_missing {s : State} {op : Byte} {mk : Byte → Instr} {k : Nat}
    (hop : opcodeShape op = some (.imm8 mk)) (hs : s.status = .running) (hk : k < 2) (hm : firstMissing s k)
    (hp : k = 0 ∨ s.peek s.pc.toNat = some op) : step s = .next (s.raise (.bounds (s.pc.toNat + k))) :=
  missingByteRaisesBoundsFault s k hs hm (hp.imp_right fun hp => ⟨op, 2, hp, opcodeLength_of_imm8 hop, hk⟩)

/-- APTR's effect, field by field: the model's bit-vector sum with the zero-extended byte is the sum modulo 2^32 of the two
values (R220, decision D9). -/
theorem exec_aptr (n : Byte) (s : State) : exec (.aptr n) s =
    .next { s with pc := s.pc + 2, ptr := BitVec.ofNat 32 ((s.ptr.toNat + n.toNat) % 4294967296) } := by
  rw [ofNat_add_byte_mod]
  rfl

/-- Settles O26: APTR's effect, and by its opcode byte's shape the step that runs it and the fault of each missing byte. -/
theorem aptrAddsUnsignedByte : Obligations.AptrAddsUnsignedByte := by
  have hop : opcodeShape 0xE1 = some (.imm8 .aptr) := rfl
  refine ⟨exec_aptr, fun s hs => ⟨fun n hp hn => ?fetched, fun k hk hm hp => ?missing⟩⟩
  case fetched => exact (step_of_imm8 hop hs hp hn).trans (exec_aptr n s)
  case missing => exact step_of_imm8_missing hop hs hk hm hp

end Sys2Proof.Machine

end

/-! PROOFS, the faults of a step: what a faulting step leaves (O16), and which opcode bytes raise which fault (O17). -/

section

namespace Sys2Proof

/-! The fields of a move opcode are the ones it was put together from (R81). -/

@[simp] theorem opDst_mvOpcode (dst : ByteDst) (src : Sel) : opDst (mvOpcode dst src) = dst.sel := by
  revert src; cases dst <;> decide

@[simp] theorem opSrc_mvOpcode (dst : ByteDst) (src : Sel) : opSrc (mvOpcode dst src) = src := by
  revert src; cases dst <;> decide

@[simp] theorem opTop_mvOpcode (dst : ByteDst) (src : Sel) : opTop (mvOpcode dst src) = 0b01 := by
  revert src; cases dst <;> decide

@[simp] theorem opSrc_mv32Opcode (dst : IntDst) (src : Sel) : opSrc (mv32Opcode dst src) = src := by
  revert src; cases dst <;> decide

@[simp] theorem opTop_mv32Opcode (dst : IntDst) (src : Sel) : opTop (mv32Opcode dst src) = 0b10 := by
  revert src; cases dst <;> decide

end Sys2Proof

namespace Sys2Proof.Machine

open Sys2Proof

/-- Everything a step that ends in Faulted can be: a raise at its start, by the opcode fetch or by the opcode byte at `Pc`
(R128, R238). -/
theorem step_faulted_cases {s t : State} {r : FaultRecord} (h : step s = .next t) (hr : t.status = .faulted r) :
    s.status = .running ∧ t = s.raise r.cause ∧ r.pc0 = s.pc ∧
      ((s.peek s.pc.toNat = none ∧ r.cause = .bounds s.pc.toNat) ∨
        ∃ op, s.peek s.pc.toNat = some op ∧ FaultsWith s op r.cause) := by
  obtain ⟨hrun, ⟨hnone, rfl⟩ | ⟨op, hp, hc | ⟨c, hf, rfl⟩⟩⟩ := step_effect h
  · cases hr
    exact ⟨hrun, rfl, rfl, .inl ⟨hnone, rfl⟩⟩
  · obtain ⟨hunfaulted, -⟩ := hc.frame hrun
    exact absurd hr (hunfaulted r)
  · cases hr
    exact ⟨hrun, rfl, rfl, .inr ⟨op, hp, hf⟩⟩

/-- Settles O16: a step that ends in Faulted is a raise at its start. -/
theorem faultsArePrecise : Obligations.FaultsArePrecise := by
  intro s t r h hr
  obtain ⟨hrun, ht, hpc, -⟩ := step_faulted_cases h hr
  refine ⟨hrun, hpc, ?_⟩
  rw [ht, State.raise, ← hpc]

/-- Settles O17: the fault is that of the opcode fetch or one the opcode byte at `Pc` can raise, and the fields of the move
opcodes say which bytes those are. -/
theorem faultCauses : Obligations.FaultCauses := by
  intro s t r h hr
  obtain ⟨-, -, -, ⟨hnone, hcause⟩ | ⟨op, hp, hf⟩⟩ := step_faulted_cases h hr
  · rw [hcause]
    exact ⟨State.peek_eq_none.1 hnone, .inl rfl⟩
  · generalize r.cause = c at hf ⊢
    cases hf with
    | illegal hill => exact ⟨hp, hill⟩
    | operand hlen hpos hk hmissing =>
      exact ⟨State.peek_eq_none.1 hmissing, .inr ⟨_, _, hp, hlen, .inl ⟨by omega, by omega⟩⟩⟩
    | load dst hout =>
      exact ⟨hout, .inr ⟨_, _, hp, opcodeLength_mvOpcode dst 7,
        .inr ⟨opTop_mvOpcode dst 7, .inl (opSrc_mvOpcode dst 7), rfl⟩⟩⟩
    | store src hout =>
      exact ⟨hout, .inr ⟨_, _, hp, opcodeLength_mvOpcode .indirect src,
        .inr ⟨opTop_mvOpcode .indirect src, .inr (opDst_mvOpcode .indirect src), rfl⟩⟩⟩
    | byteWrite src => exact ⟨_, hp, .inl ⟨rfl, rfl, mvOpcode_bounds .immediate src⟩⟩
    | intRead dst => exact ⟨_, hp, .inr (.inl ⟨rfl, rfl, opTop_mv32Opcode dst 7, opSrc_mv32Opcode dst 7⟩)⟩
    | intWriteZero hsrc => exact ⟨_, hp, .inr (.inr (.inl ⟨rfl, rfl, mv32Opcode_bounds .immediate hsrc⟩))⟩
    | intWriteSeven hsrc => exact ⟨_, hp, .inr (.inr (.inr ⟨rfl, rfl, mv32Opcode_bounds .indirect hsrc⟩))⟩

end Sys2Proof.Machine

end

/-! PROOFS, the model's reset as a construction and its first step (O41). -/

section

namespace Sys2Proof.Machine

open Sys2Proof

/-- An image that fits the address space is constructed (R7, R34); the converse is `construct_next`. -/
theorem construct_of_length_le {dst4 : Dst4} {image : List Byte} (h : image.length ≤ addressSpace) :
    construct dst4 image =
      .next { State.reset with mem := Memory.ofBytes 0 image, cfg := { memSize := image.length, dst4 := dst4 } } :=
  if_pos h

/-- Settles O41: the empty image fits and leaves every field at its reset value; with no byte in memory, `Pc` = 0 already
stands outside it, so the opcode fetch faults there. -/
theorem resetIsTheEmptyImage : Obligations.ResetIsTheEmptyImage := by
  have hfits : ([] : List Byte).length ≤ addressSpace := Nat.zero_le _
  have hrunning : State.reset.status = .running := rfl
  have houtside : State.reset.cfg.memSize ≤ State.reset.pc.toNat := Nat.zero_le _
  exact ⟨construct_of_length_le hfits, step_of_pc_outside hrunning houtside⟩

end Sys2Proof.Machine

end
